-- ==== Sys2Proof/Word.lean ====
section
/-! DEFINITION. The widths of B32C's values: bytes, symbols, character codes, command and response words
(spec 00_scope.md R7, R9; 30_encoding.md R74, R77). -/

namespace Sys2Proof

/-- One byte, and one ROM entry or output unit: BYTE_W = 8 bits (R7, R21). -/
abbrev Byte := BitVec 8

/-- One symbol value: SYM_W = 5 bits (R7). -/
abbrev Symbol := BitVec 5

/-- One character code of B32C: CHAR_W = 21 bits (R7). Other widths are `BitVec cw`, for the parameter CHAR_W = cw. -/
abbrev CharCode := BitVec 21

/-- A command or a response: one 32-bit word (R74, R77). -/
abbrev Word := BitVec 32

end Sys2Proof
end

