-- ==== Sys2Proof/Config.lean ====
section
/-! DEFINITION. What an implementation of B32C takes as a parameter (spec 00_scope.md R7, 92_eei_decisions.md D26), and
the free values for the states the spec gives no rule for (93_implementation_defined.md U3, U4; log entries 4 to 6).
The B32C values of the parameters stand in Machine/Rom.lean. -/

namespace Sys2Proof

/-- The parameters of R7: CHAR_W is the argument `cw`, ALPHABET and WS_SET are the fields. The machine takes all three
(Machine/Port.lean). The alphabet has exactly 32 entries below 2^8 by its type; what else R7 and R161 require is
`CodecParams.wf` (WellFormed.lean). -/
structure CodecParams (cw : Nat) where
  /-- ALPHABET: entry i is the character code of the 5-bit value i. -/
  alphabet : Vector Byte 32
  /-- WS_SET: the codes the validator counts as whitespace. -/
  wsSet : List (BitVec cw)
  deriving DecidableEq, Repr

/-- Free value: the first symbol of ENC.BYTE, and the symbol of ENC.END, with ENC_CNT in 5..7 (U3; log entry 5). -/
opaque Config.freeEncFirst : Nat → Symbol

/-- Free value: whether ENC.BYTE emits a second symbol with ENC_CNT in 5..7, and which (U3; log entry 5). -/
opaque Config.freeEncSecond : Nat → Option Symbol

/-- Free value: ENC_ACC after ENC.BYTE with ENC_CNT in 5..7 (U3; log entry 5). -/
opaque Config.freeEncAcc : Nat → BitVec 4

/-- Free value: ENC_CNT after ENC.BYTE with ENC_CNT in 5..7 (U3; log entry 5). -/
opaque Config.freeEncCnt : Nat → BitVec 3

/-- Free value: DEC_ACC after a DEC.CHAR hit that emits no byte, with DEC_ACC at or above 2^DEC_CNT (U4; log entry 6). -/
opaque Config.freeDecAcc : Nat → BitVec 7

end Sys2Proof
end

