-- ==== Sys2Proof/Syntax.lean ====
section
/-! DEFINITION. The commands of B32C-1: one constructor per row of spec/opcode_table.json (spec 30_encoding.md R80).
Each operand has the width of its field (R75), so an operand out of range cannot be written. -/

namespace Sys2Proof

/-- The eleven commands (R80). -/
inductive Instr where
  /-- ENC.BYTE b (R101). -/
  | encByte (b : Byte)
  /-- ENC.END (R102). -/
  | encEnd
  /-- ENC.CLEAR (R103). -/
  | encClear
  /-- DEC.CHAR c (R131). -/
  | decChar (c : CharCode)
  /-- DEC.END (R132). -/
  | decEnd
  /-- DEC.CLEAR (R133). -/
  | decClear
  /-- VAL.CHAR c (R162). -/
  | valChar (c : CharCode)
  /-- VAL.END (R163). -/
  | valEnd
  /-- VAL.CLEAR (R164). -/
  | valClear
  /-- ALPHA.READ i (R190). -/
  | alphaRead (i : Symbol)
  /-- STATUS (R191). -/
  | status
  deriving DecidableEq, Repr

end Sys2Proof
end

