-- ==== Sys2Proof/Machine/Operands.lean ====
section
/-! DEFINITION. The command word's fields, the four operand forms and the opcode map (spec 30_encoding.md R74, R75, R80).
Every field is unsigned and zero-extended to the width it is used at. -/

namespace Sys2Proof

/-- The operand forms of R75. -/
inductive OperandForm where
  | b8
  | ch
  | ix
  | no
  deriving DecidableEq, Repr

/-- FIELD_W of R75: the width of the form's field, where CHAR_W is `cw`. -/
def OperandForm.fieldWidthOf (cw : Nat) : OperandForm → Nat
  | .b8 => 8
  | .ch => cw
  | .ix => 5
  | .no => 0

/-- FIELD_W of R75 at B32C's CHAR_W, 21. -/
def OperandForm.fieldWidth (f : OperandForm) : Nat :=
  f.fieldWidthOf 21

/-- The legal opcodes, one per row of R80. -/
inductive Opcode where
  | encByte
  | encEnd
  | encClear
  | decChar
  | decEnd
  | decClear
  | valChar
  | valEnd
  | valClear
  | alphaRead
  | status
  deriving DecidableEq, Repr

/-- The OPC column of R80. -/
def Opcode.code : Opcode → BitVec 8
  | .encByte => 0x01
  | .encEnd => 0x02
  | .encClear => 0x03
  | .decChar => 0x11
  | .decEnd => 0x12
  | .decClear => 0x13
  | .valChar => 0x21
  | .valEnd => 0x22
  | .valClear => 0x23
  | .alphaRead => 0x31
  | .status => 0x32

/-- The form column of R80. -/
def Opcode.form : Opcode → OperandForm
  | .encByte => .b8
  | .encEnd => .no
  | .encClear => .no
  | .decChar => .ch
  | .decEnd => .no
  | .decClear => .no
  | .valChar => .ch
  | .valEnd => .no
  | .valClear => .no
  | .alphaRead => .ix
  | .status => .no

/-- The unit column of R80; ALPHA.READ (the ROM) and STATUS (all units) are the utility commands. -/
inductive CodecUnit where
  | enc
  | dec
  | val
  | utility
  deriving DecidableEq, Repr

/-- The unit column of R80. -/
def Opcode.codecUnit : Opcode → CodecUnit
  | .encByte => .enc
  | .encEnd => .enc
  | .encClear => .enc
  | .decChar => .dec
  | .decEnd => .dec
  | .decClear => .dec
  | .valChar => .val
  | .valEnd => .val
  | .valClear => .val
  | .alphaRead => .utility
  | .status => .utility

/-- The rows of R80, in its order. -/
def Opcode.all : List Opcode :=
  [.encByte, .encEnd, .encClear, .decChar, .decEnd, .decClear, .valChar, .valEnd, .valClear, .alphaRead, .status]

/-- The row of R80 whose OPC is the given byte; none for an unassigned opcode (R81). -/
def Opcode.ofCode? (b : BitVec 8) : Option Opcode :=
  Opcode.all.find? (fun o => o.code == b)

/-- OPC, bits 31:24 of a command word (R74). -/
def opcField (w : Word) : BitVec 8 :=
  w.extractLsb' 24 8

/-- OPERAND, bits 23:0 of a command word (R74). -/
def operandField (w : Word) : BitVec 24 :=
  w.extractLsb' 0 24

/-- No reserved bit of the form is set, where CHAR_W is `cw`: `(opnd >> FIELD_W(form)) = 0` (R75, R83). -/
def operandFitsOf (cw : Nat) (f : OperandForm) (opnd : BitVec 24) : Bool :=
  opnd >>> f.fieldWidthOf cw == 0#24

/-- No reserved bit of the form is set at B32C's CHAR_W, 21. -/
def operandFits (f : OperandForm) (opnd : BitVec 24) : Bool :=
  operandFitsOf 21 f opnd

/-- BYTE, OPERAND[7:0], of form B8. -/
def byteOperand (opnd : BitVec 24) : Byte :=
  opnd.setWidth 8

/-- CHAR, OPERAND[CHAR_W-1:0], of form CH. -/
def charOperand {cw : Nat} (opnd : BitVec 24) : BitVec cw :=
  opnd.setWidth cw

/-- IDX, OPERAND[4:0], of form IX. -/
def indexOperand (opnd : BitVec 24) : Symbol :=
  opnd.setWidth 5

/-- `zext_24` of R9; every value it is used on has at most 24 bits. -/
def zext24 {n : Nat} (v : BitVec n) : BitVec 24 :=
  v.setWidth 24

/-- The command's row of R80. -/
def Instr.opcode : Instr → Opcode
  | .encByte _ => .encByte
  | .encEnd => .encEnd
  | .encClear => .encClear
  | .decChar _ => .decChar
  | .decEnd => .decEnd
  | .decClear => .decClear
  | .valChar _ => .valChar
  | .valEnd => .valEnd
  | .valClear => .valClear
  | .alphaRead _ => .alphaRead
  | .status => .status

/-- The unit the command is for. -/
def Instr.codecUnit (i : Instr) : CodecUnit :=
  i.opcode.codecUnit

/-- The command's OPERAND: its field zero-extended, reserved bits 0 (R75). -/
def Instr.operand : Instr → BitVec 24
  | .encByte b => zext24 b
  | .encEnd => 0
  | .encClear => 0
  | .decChar c => zext24 c
  | .decEnd => 0
  | .decClear => 0
  | .valChar c => zext24 c
  | .valEnd => 0
  | .valClear => 0
  | .alphaRead i => zext24 i
  | .status => 0

/-- The command an opcode and an OPERAND stand for, once the reserved bits are known to be 0 (the case list of R83). -/
def Opcode.toInstr (o : Opcode) (opnd : BitVec 24) : Instr :=
  match o with
  | .encByte => .encByte (byteOperand opnd)
  | .encEnd => .encEnd
  | .encClear => .encClear
  | .decChar => .decChar (charOperand opnd)
  | .decEnd => .decEnd
  | .decClear => .decClear
  | .valChar => .valChar (charOperand opnd)
  | .valEnd => .valEnd
  | .valClear => .valClear
  | .alphaRead => .alphaRead (indexOperand opnd)
  | .status => .status

end Sys2Proof
end

