-- ==== Sys2Proof/WellFormed.lean ====
section
/-! DEFINITION. Well-formedness of what the model takes: a command's operand lies in its field (spec 30_encoding.md R75),
and the parameters are as 00_scope.md R7 and 42_validator.md R161 require. -/

namespace Sys2Proof

variable {cw : Nat}

/-- No reserved bit of the command's form is set (R75). The operand types of `Instr` already ensure it, so every command
is well-formed; the check that can fail is `operandFits` on a raw OPERAND. -/
def Instr.wf (i : Instr) : Bool :=
  operandFits i.opcode.form i.operand

/-- R7: the alphabet's entries are pairwise distinct (32 of them, each below 2^8, by type). -/
def CodecParams.distinct (p : CodecParams cw) : Bool :=
  decide p.alphabet.toList.Nodup

/-- R161: WS_SET is disjoint from the alphabet. -/
def CodecParams.wsDisjoint (p : CodecParams cw) : Bool :=
  p.alphabet.toList.all (fun b => !p.wsSet.contains (b.setWidth cw))

/-- CHAR_W is at least 7 (92_eei_decisions.md, open parameters), fits OPERAND and DATA, which have 24 bits (R74, R77), and
holds every alphabet entry, so that `zext_CHAR_W` of R24 loses none (93_implementation_defined.md U13; log entry 8). -/
def CodecParams.widthFits (p : CodecParams cw) : Bool :=
  decide (7 ≤ cw) && decide (cw ≤ 24) && p.alphabet.toList.all (fun b => decide (b.toNat < 2 ^ cw))

/-- What R7 and R161 require of the parameters. -/
def CodecParams.wf (p : CodecParams cw) : Bool :=
  p.distinct && p.wsDisjoint && p.widthFits

end Sys2Proof
end

