-- ==== Sys2Proof/Decode.lean ====
section
/-! DEFINITION. Decoding a command word (spec 30_encoding.md R83), total on all 32-bit words, and the encoder (R74, R75,
R80); then the table-driven decoder of R83 from spec/opcode_table.json. -/

namespace Sys2Proof

/-- Why a word is illegal (R76). Both get the ILLEGAL_COMMAND response. -/
inductive Illegal where
  /-- OPC is not in the table of R80. -/
  | unassignedOpcode (opc : BitVec 8)
  /-- A reserved bit of the opcode's form is set. -/
  | reservedBits (opc : BitVec 8)
  deriving DecidableEq, Repr

/-- The OPC that the ILLEGAL_COMMAND response echoes (R76, R213). -/
def Illegal.opc : Illegal → BitVec 8
  | .unassignedOpcode opc => opc
  | .reservedBits opc => opc

/-- The decode procedure of R83: the opcode's row first, then the reserved bits. -/
def decode (w : Word) : Except Illegal Instr :=
  match Opcode.ofCode? (opcField w) with
  | none => .error (.unassignedOpcode (opcField w))
  | some o =>
    if operandFits o.form (operandField w) then
      .ok (o.toInstr (operandField w))
    else
      .error (.reservedBits (opcField w))

/-- The word of an opcode and an OPERAND: OPC in bits 31:24, OPERAND in bits 23:0 (R74, R80). -/
def commandWord (o : Opcode) (opnd : BitVec 24) : Word :=
  o.code ++ opnd

/-- The word of a command, its reserved bits 0 (R74, R75, R80). -/
def encode (i : Instr) : Word :=
  commandWord i.opcode i.operand

/-- One row of spec/opcode_table.json. -/
structure OpcodeRow where
  /-- The row's command. -/
  opcode : Opcode
  /-- The row's mnemonic. -/
  mnemonic : String
  /-- OPC and every reserved operand bit. -/
  mask : Word
  /-- The bits under the mask. -/
  bits : Word
  deriving DecidableEq, Repr

/-- spec/opcode_table.json. -/
def opcodeTable : List OpcodeRow :=
  [ ⟨.encByte, "ENC.BYTE", 0xFFFFFF00, 0x01000000⟩,
    ⟨.encEnd, "ENC.END", 0xFFFFFFFF, 0x02000000⟩,
    ⟨.encClear, "ENC.CLEAR", 0xFFFFFFFF, 0x03000000⟩,
    ⟨.decChar, "DEC.CHAR", 0xFFE00000, 0x11000000⟩,
    ⟨.decEnd, "DEC.END", 0xFFFFFFFF, 0x12000000⟩,
    ⟨.decClear, "DEC.CLEAR", 0xFFFFFFFF, 0x13000000⟩,
    ⟨.valChar, "VAL.CHAR", 0xFFE00000, 0x21000000⟩,
    ⟨.valEnd, "VAL.END", 0xFFFFFFFF, 0x22000000⟩,
    ⟨.valClear, "VAL.CLEAR", 0xFFFFFFFF, 0x23000000⟩,
    ⟨.alphaRead, "ALPHA.READ", 0xFFFFFFE0, 0x31000000⟩,
    ⟨.status, "STATUS", 0xFFFFFFFF, 0x32000000⟩ ]

/-- The word matches the row: `(w & mask) == match` (R83). -/
def OpcodeRow.hits (r : OpcodeRow) (w : Word) : Bool :=
  w &&& r.mask == r.bits

/-- The decoder R83 describes as built from opcode_table.json. -/
def tableDecode (w : Word) : Option Instr :=
  (opcodeTable.find? (fun r => r.hits w)).map (fun r => r.opcode.toInstr (operandField w))

/-- What `decode` reads from a word numbered as spec/opcode_table.json numbers it; a command is one 32-bit word, so the
bits above `nbits` are 0 and none lie above bit 31 (log entry 10). -/
def decodeTableWord (nbits w : Nat) : Option Instr :=
  match decode (BitVec.ofNat 32 (w % 2 ^ nbits)) with
  | .ok i => some i
  | .error _ => none

end Sys2Proof
end

