-- ==== Sys2Proof/Machine/Response.lean ====
section
/-! DEFINITION. The response word (spec 30_encoding.md R77 to R79) and the status codes (R87). -/

namespace Sys2Proof.Machine

/-- The outcomes of R87. Codes 6 to 15 are never produced. -/
inductive RspStatus where
  | ok
  | invalidCharacter
  | emptyInput
  | invalidAlphabetCharacter
  | illegalCommand
  | aborted
  deriving DecidableEq, Repr

/-- The code column of R87. -/
def RspStatus.code : RspStatus → BitVec 4
  | .ok => 0
  | .invalidCharacter => 1
  | .emptyInput => 2
  | .invalidAlphabetCharacter => 3
  | .illegalCommand => 4
  | .aborted => 5

/-- `respond(s, n, d)` is the word `s[3:0], n[1:0], 00, d[23:0]` (R77). -/
def respWord (st : RspStatus) (n : BitVec 2) (d : BitVec 24) : Word :=
  st.code ++ n ++ 0#2 ++ d

/-- STATUS, bits 31:28 (R77). -/
def rspStatus (r : Word) : BitVec 4 :=
  r.extractLsb' 28 4

/-- COUNT, bits 27:26 (R77). -/
def rspCount (r : Word) : BitVec 2 :=
  r.extractLsb' 26 2

/-- RSVD, bits 25:24 (R77). -/
def rspRsvd (r : Word) : BitVec 2 :=
  r.extractLsb' 24 2

/-- DATA, bits 23:0 (R77). -/
def rspInfo (r : Word) : BitVec 24 :=
  r.extractLsb' 0 24

/-- DATA for a list of at most two output units: the first in DATA[7:0], the second in DATA[15:8], zeros above (R78). -/
def packUnits : List Byte → BitVec 24
  | [] => 0
  | [u0] => u0.setWidth 24
  | u0 :: u1 :: _ => (u1 ++ u0 : BitVec 16).setWidth 24

/-- The output units a response carries: COUNT of them, when STATUS is OK (R78). -/
def outputUnits (r : Word) : List Byte :=
  if rspStatus r == RspStatus.ok.code then
    [r.extractLsb' 0 8, r.extractLsb' 8 8].take (rspCount r).toNat
  else
    []

/-- The character code an INVALID_CHARACTER or INVALID_ALPHABET_CHARACTER response carries, DATA[CHAR_W-1:0] (R211). -/
def rspChar {cw : Nat} (r : Word) : BitVec cw :=
  r.extractLsb' 0 cw

end Sys2Proof.Machine
end

