-- ==== Sys2Proof/Machine/Rom.lean ====
section
/-! DEFINITION. The alphabet ROM, its inverse lookup and the whitespace set (spec 10_state.md R21 to R25, 42_validator.md
R161): over any parameters, and the B32C values. -/

namespace Sys2Proof

variable {cw : Nat}

/-- ROM[i], the alphabet entry i (R11, R21). -/
def CodecParams.rom (p : CodecParams cw) (i : Symbol) : Byte :=
  p.alphabet.get i.toFin

/-- What INV answers (R24). -/
structure Lookup where
  /-- 1 when the code is in the alphabet. -/
  hit : Bool
  /-- The code's index; 0 on a miss. -/
  idx : Symbol
  deriving DecidableEq, Repr

/-- INV(c): an exact match of the whole code against every zero-extended entry, with no case folding (R24). -/
def CodecParams.inv (p : CodecParams cw) (c : BitVec cw) : Lookup :=
  match (List.range 32).find? (fun i => (p.rom (BitVec.ofNat 5 i)).setWidth cw == c) with
  | some i => { hit := true, idx := BitVec.ofNat 5 i }
  | none => { hit := false, idx := 0 }

/-- c ∈ WS_SET (R161). -/
def CodecParams.isWs (p : CodecParams cw) (c : BitVec cw) : Bool :=
  p.wsSet.contains c

/-- The alphabet "BCDFGHJKMNPQRSTVWXYZ23456789AE01": the code column of R21. -/
def alphabetCodes : Vector Byte 32 :=
  #v[0x42, 0x43, 0x44, 0x46, 0x47, 0x48, 0x4A, 0x4B, 0x4D, 0x4E, 0x50, 0x51, 0x52, 0x53, 0x54, 0x56,
     0x57, 0x58, 0x59, 0x5A, 0x32, 0x33, 0x34, 0x35, 0x36, 0x37, 0x38, 0x39, 0x41, 0x45, 0x30, 0x31]

/-- WS_SET of R161: 25 codes. -/
def whitespaceCodes : List CharCode :=
  [0x0009, 0x000A, 0x000B, 0x000C, 0x000D, 0x0020, 0x00A0, 0x1680] ++
  [0x2000, 0x2001, 0x2002, 0x2003, 0x2004, 0x2005, 0x2006, 0x2007, 0x2008, 0x2009, 0x200A] ++
  [0x2028, 0x2029, 0x202F, 0x205F, 0x3000, 0xFEFF]

/-- The B32C instance of the parameters, with CHAR_W = 21 (R7). -/
def b32c : CodecParams 21 :=
  { alphabet := alphabetCodes, wsSet := whitespaceCodes }

namespace Machine

/-- B32C's ROM (R21). -/
def rom (i : Symbol) : Byte :=
  b32c.rom i

/-- B32C's inverse lookup (R24). -/
def inv (c : CharCode) : Lookup :=
  b32c.inv c

/-- B32C's whitespace test (R161). -/
def isWs (c : CharCode) : Bool :=
  b32c.isWs c

end Machine

end Sys2Proof
end

