-- ==== Sys2Proof/Machine/State.lean ====
section
/-! DEFINITION. The state of a codec block with CHAR_W = cw, and B32C's, with CHAR_W = 21: the nine registers of spec
10_state.md R20 grouped by unit, the port-level response register of R36, and the model's own fields (the host's coming port
samples, the responses taken, the free values' index); the reasons to stop; reset (R40). -/

namespace Sys2Proof.Machine

/-- ENC's registers (R26, R27). -/
structure EncUnit where
  /-- ENC_ACC, 4 bits: the pending bits, right-aligned (R26). -/
  acc : BitVec 4
  /-- ENC_CNT, 3 bits: how many bits are pending (R27). -/
  cnt : BitVec 3
  deriving DecidableEq, Repr

/-- DEC's registers, where CHAR_W is `cw` (R28 to R31). -/
structure DecUnit (cw : Nat) where
  /-- DEC_ACC, 7 bits: the pending bits, right-aligned (R28). -/
  acc : BitVec 7
  /-- DEC_CNT, 3 bits: how many bits are pending (R29). -/
  cnt : BitVec 3
  /-- DEC_ERR, 1 bit: the sticky error (R30). -/
  err : Bool
  /-- DEC_ERRCH, CHAR_W bits: the offending character (R31). -/
  errch : BitVec cw
  deriving DecidableEq, Repr

/-- VAL's registers, where CHAR_W is `cw` (R33 to R35). -/
structure ValUnit (cw : Nat) where
  /-- VAL_SEEN, 1 bit: a character outside WS_SET was seen (R33). -/
  seen : Bool
  /-- VAL_BAD, 1 bit: a character that misses the lookup was seen (R34). -/
  bad : Bool
  /-- VAL_BADCH, CHAR_W bits: the first such character (R35). -/
  badch : BitVec cw
  deriving DecidableEq, Repr

/-- The port-level response register (R36). -/
structure RspReg where
  /-- RSP_VALID, 1 bit; the port's `rsp_valid`. -/
  valid : Bool
  /-- RSP_DATA, 32 bits; the port's `rsp_data`. -/
  data : BitVec 32
  deriving DecidableEq, Repr

/-- The levels of the input ports at one rising edge of `clk` (spec 30_encoding.md R70). -/
structure PortSample where
  /-- `rst`, active high. -/
  rst : Bool
  /-- `cmd_valid`. -/
  cmdValid : Bool
  /-- `cmd_data`. -/
  cmdData : BitVec 32
  /-- `rsp_ready`. -/
  rspReady : Bool
  deriving DecidableEq, Repr

/-- Why the machine stops with a fault: never. An error in B32C is a response status, never a trap (spec
60_exceptions.md R210), and every word has exactly one outcome (30_encoding.md R83), so there is no constructor
(log entry 7; safe). -/
inductive Fault where
  deriving DecidableEq, Repr

/-- Why an instruction has no meaning. -/
inductive Refusal where
  /-- Raised by an arm of `exec` whose instruction has no meaning yet; safe. No arm of this model raises it. -/
  | notModelled (mnemonic : String)
  deriving DecidableEq, Repr

end Sys2Proof.Machine

namespace Sys2Proof.Codec

open Sys2Proof.Machine

/-- The state of a codec block with CHAR_W = `cw` and of its port's waveform. -/
structure State (cw : Nat) where
  /-- ENC_ACC and ENC_CNT. -/
  enc : EncUnit
  /-- DEC_ACC, DEC_CNT, DEC_ERR and DEC_ERRCH. -/
  dec : DecUnit cw
  /-- VAL_SEEN, VAL_BAD and VAL_BADCH. -/
  val : ValUnit cw
  /-- RSP_VALID and RSP_DATA. -/
  rsp : RspReg
  /-- The model's own: what the host drives at the coming rising edges, the next one first (log entry 2). -/
  port : List PortSample
  /-- The model's own: the responses the host has taken, oldest first (R73, R251; log entry 3). -/
  taken : List (BitVec 32)
  /-- The model's own: the index of the next free value (log entry 4). -/
  freeCount : Nat
  deriving DecidableEq, Repr

end Sys2Proof.Codec

namespace Sys2Proof.Machine

/-- The state of B32C, whose CHAR_W is 21 (R7). -/
abbrev State : Type := Sys2Proof.Codec.State 21

/-- ENC idle: no bits pending (R40). -/
def EncUnit.idle : EncUnit := { acc := 0, cnt := 0 }

/-- DEC idle: no bits pending, no sticky error (R40). -/
def DecUnit.idle {cw : Nat} : DecUnit cw := { acc := 0, cnt := 0, err := false, errch := 0 }

/-- VAL idle: nothing scanned (R40). -/
def ValUnit.idle {cw : Nat} : ValUnit cw := { seen := false, bad := false, badch := 0 }

/-- The response register after reset (R40, R240). -/
def RspReg.empty : RspReg := { valid := false, data := 0 }

/-- The machine right after reset: every register 0 (R40). The model's own fields are empty or 0 (log entries 2 to 4). -/
def State.reset : State :=
  { enc := EncUnit.idle
    dec := DecUnit.idle
    val := ValUnit.idle
    rsp := RspReg.empty
    port := []
    taken := []
    freeCount := 0 }

end Sys2Proof.Machine
end

