-- ==== Sys2Proof/Machine/Ops.lean ====
section
/-! DEFINITION. The named operations the meanings share: the bit-buffer's window and mask (spec 00_scope.md R9, R10),
register writes, `respond` (30_encoding.md R77), and the entry into and exit from DEC's sticky error, which is what B32C
has in place of taking an exception and returning from one (60_exceptions.md R217, R218). -/

namespace Sys2Proof.Machine

/-- The oldest k of the n pending bits of a BitBuffer: `(a >> (n - k)) & mask(k)`, that is a[n-1 : n-k] (R101, R131). -/
def window (k : Nat) (a : BitVec 12) (n : Nat) : BitVec k :=
  (a >>> (n - k)).setWidth k

/-- `a & mask(n)`: the n pending bits that stay (R10, R101, R131). -/
def lowBits (a : BitVec 12) (n : Nat) : BitVec 12 :=
  a &&& BitVec.ofNat 12 (2 ^ n - 1)

end Sys2Proof.Machine

namespace Sys2Proof.Codec

open Sys2Proof.Machine

variable {cw : Nat}

/-- Writes ENC's registers. -/
def State.setEnc (s : State cw) (e : EncUnit) : State cw :=
  { s with enc := e }

/-- Writes DEC's registers. -/
def State.setDec (s : State cw) (d : DecUnit cw) : State cw :=
  { s with dec := d }

/-- Writes VAL's registers. -/
def State.setVal (s : State cw) (v : ValUnit cw) : State cw :=
  { s with val := v }

/-- `respond(st, n, d)`: the command's response goes to the response register (R72, R77). -/
def State.respond (s : State cw) (st : RspStatus) (n : BitVec 2) (d : BitVec 24) : State cw :=
  { s with rsp := { valid := true, data := respWord st n d } }

/-- `respond(OK, n, units)` for a list of at most two output units (R78). -/
def State.respondUnits (s : State cw) (us : List Byte) : State cw :=
  s.respond .ok (BitVec.ofNat 2 us.length) (packUnits us)

/-- A free value has been used: the next one has the next index (log entry 4). -/
def State.drawFree (s : State cw) : State cw :=
  { s with freeCount := s.freeCount + 1 }

/-- Entry into the sticky error: DEC_ERR is set, DEC_ERRCH latches the character, the pending bits are dropped, and the
response is INVALID_CHARACTER with that character, in one step (R131, R217). -/
def State.enterDecError (s : State cw) (c : BitVec cw) : State cw :=
  (s.setDec { acc := 0, cnt := 0, err := true, errch := c }).respond .invalidCharacter 0 (c.setWidth 24)

/-- Exit from the sticky error, and the end of a decode message: DEC is idle (R132, R133, R218). -/
def State.leaveDec (s : State cw) : State cw :=
  s.setDec DecUnit.idle

/-- The response to an illegal word: OPC is echoed and no register of a unit changes (R76, R213). -/
def State.respondIllegal (s : State cw) (opc : BitVec 8) : State cw :=
  s.respond .illegalCommand 0 (opc.setWidth 24)

end Sys2Proof.Codec
end

