-- ==== Sys2Proof/Machine/Flags.lean ====
section
/-! DEFINITION. The flags of B32C (spec 10_state.md R38): VAL_SEEN and VAL_BAD with VAL_BADCH as VAL.CHAR sets them
(42_validator.md R162), and the order in which DEC.CHAR and VAL.END read the flags (60_exceptions.md R216). DEC_ERR is set
and cleared by `State.enterDecError` and `State.leaveDec`. -/

namespace Sys2Proof.Codec

open Sys2Proof.Machine

variable {cw : Nat}

/-- VAL's registers after the character c (R162): VAL_SEEN once a character lies outside WS_SET, VAL_BAD and VAL_BADCH at
the first miss only. -/
def scanChar (p : CodecParams cw) (v : ValUnit cw) (c : BitVec cw) : ValUnit cw :=
  { seen := v.seen || !p.isWs c
    bad := v.bad || !(p.inv c).hit
    badch := if v.bad || (p.inv c).hit then v.badch else c }

/-- What DEC.CHAR does with a character. -/
inductive DecOutcome where
  /-- DEC_ERR = 1: the character is not looked up. -/
  | aborted
  /-- The character misses the lookup. -/
  | miss
  /-- The character's 5-bit value. -/
  | value (v : Symbol)
  deriving DecidableEq, Repr

/-- R216: the sticky error first, then the lookup. -/
def classifyChar (p : CodecParams cw) (d : DecUnit cw) (c : BitVec cw) : DecOutcome :=
  if d.err then .aborted
  else if (p.inv c).hit then .value (p.inv c).idx
  else .miss

/-- The status VAL.END returns: EMPTY_INPUT wins over INVALID_ALPHABET_CHARACTER (R163, R216). -/
def verdictStatus (v : ValUnit cw) : RspStatus :=
  if !v.seen then .emptyInput
  else if v.bad then .invalidAlphabetCharacter
  else .ok

/-- The character VAL.END reports with INVALID_ALPHABET_CHARACTER; 0 with the other statuses (R163). -/
def verdictInfo (v : ValUnit cw) : BitVec 24 :=
  if v.seen && v.bad then v.badch.setWidth 24 else 0

/-- STATUS's DATA: `VAL_BAD, VAL_SEEN, DEC_ERR, DEC_CNT[2:0], 0, ENC_CNT[2:0]`, zero-extended (R191). -/
def statusInfo (s : State cw) : BitVec 24 :=
  (BitVec.ofBool s.val.bad ++ BitVec.ofBool s.val.seen ++ BitVec.ofBool s.dec.err ++ s.dec.cnt ++ 0#1 ++ s.enc.cnt
    : BitVec 10).setWidth 24

end Sys2Proof.Codec
end

