-- ==== Sys2Proof/Machine/Decoder.lean ====
section
/-! DEFINITION. The decoder unit: DEC.CHAR, DEC.END, DEC.CLEAR (spec 41_decoder.md R131 to R133), for any parameters, and
B32C's. -/

namespace Sys2Proof.Codec

open Sys2Proof.Machine

variable {cw : Nat}

/-- DEC.CHAR with a hit of value v, DEC_ERR = 0: the 5-bit accumulator and the 8-bit emitter (the pseudocode of R131).
Where no byte is emitted the rule writes `a` whole, which fits DEC_ACC because DEC_ACC < 2^DEC_CNT (R28); in a state that
breaks this R131's pseudocode and its table differ and DEC_ACC is free (U4; log entry 6). -/
def State.foldSymbol (s : State cw) (v : Symbol) : State cw :=
  let a : BitVec 12 := (s.dec.acc.setWidth 12 <<< 5) ||| v.setWidth 12
  let n := s.dec.cnt.toNat + 5
  if 8 ≤ n then
    let n1 := n - 8
    (s.setDec { s.dec with acc := (lowBits a n1).setWidth 7, cnt := BitVec.ofNat 3 n1 }).respondUnits [window 8 a n]
  else if s.dec.acc.toNat < 2 ^ s.dec.cnt.toNat then
    (s.setDec { s.dec with acc := a.setWidth 7, cnt := BitVec.ofNat 3 n }).respondUnits []
  else
    (s.drawFree.setDec { s.dec with acc := Config.freeDecAcc s.freeCount, cnt := BitVec.ofNat 3 n }).respondUnits []

/-- DEC.CHAR (R131; the order of the tests is R216's). -/
def decChar (p : CodecParams cw) (c : BitVec cw) (s : State cw) : Host.Outcome (State cw) Fault Refusal :=
  match classifyChar p s.dec c with
  | .aborted => .next (s.respond .aborted 0 0)
  | .miss => .next (s.enterDecError c)
  | .value v => .next (s.foldSymbol v)

/-- DEC.END's leftover report: DATA[14:8] = DEC_ACC, DATA[2:0] = DEC_CNT (R132). -/
def leftoverInfo (d : DecUnit cw) : BitVec 24 :=
  (d.acc ++ 0#5 ++ d.cnt : BitVec 15).setWidth 24

/-- DEC.END (R132). -/
def decEnd (s : State cw) : Host.Outcome (State cw) Fault Refusal :=
  if s.dec.err then
    .next (s.leaveDec.respond .invalidCharacter 0 (s.dec.errch.setWidth 24))
  else
    .next (s.leaveDec.respond .ok 0 (leftoverInfo s.dec))

/-- DEC.CLEAR (R133). -/
def decClear (s : State cw) : Host.Outcome (State cw) Fault Refusal :=
  .next (s.leaveDec.respond .ok 0 0)

end Sys2Proof.Codec

namespace Sys2Proof.Machine

/-- B32C's DEC.CHAR (R131). -/
def execDecChar (c : CharCode) (s : State) : Host.Outcome State Fault Refusal :=
  Sys2Proof.Codec.decChar b32c c s

/-- B32C's DEC.END (R132). -/
def execDecEnd (s : State) : Host.Outcome State Fault Refusal :=
  Sys2Proof.Codec.decEnd s

/-- B32C's DEC.CLEAR (R133). -/
def execDecClear (s : State) : Host.Outcome State Fault Refusal :=
  Sys2Proof.Codec.decClear s

end Sys2Proof.Machine
end

