-- ==== Sys2Proof/Machine/Encoder.lean ====
section
/-! DEFINITION. The encoder unit: ENC.BYTE, ENC.END, ENC.CLEAR (spec 40_encoder.md R101 to R103), for any parameters, and
B32C's. -/

namespace Sys2Proof.Codec

open Sys2Proof.Machine

variable {cw : Nat}

/-- What ENC.BYTE computes: ENC's new registers and the one or two symbols it emits. -/
structure EncStep where
  /-- ENC_ACC and ENC_CNT afterwards. -/
  unit : EncUnit
  /-- The first symbol. -/
  first : Symbol
  /-- The second symbol, when there is one. -/
  second : Option Symbol
  deriving DecidableEq, Repr

/-- ENC.BYTE's 5-bit extractor (the pseudocode of R101). -/
def encExtract (e : EncUnit) (b : Byte) : EncStep :=
  let a : BitVec 12 := (e.acc.setWidth 12 <<< 8) ||| b.setWidth 12
  let n := e.cnt.toNat + 8
  let n1 := n - 5
  if 5 ≤ n1 then
    let n2 := n1 - 5
    { unit := { acc := (lowBits a n2).setWidth 4, cnt := BitVec.ofNat 3 n2 }
      first := window 5 a n
      second := some (window 5 a n1) }
  else
    { unit := { acc := (lowBits a n1).setWidth 4, cnt := BitVec.ofNat 3 n1 }
      first := window 5 a n
      second := none }

/-- ENC.BYTE with ENC_CNT in 5..7, for which R101 gives no rule: every value it would compute is free (U3; log entry 5). -/
def encExtractOpen (k : Nat) : EncStep :=
  { unit := { acc := Config.freeEncAcc k, cnt := Config.freeEncCnt k }
    first := Config.freeEncFirst k
    second := Config.freeEncSecond k }

/-- ENC's registers and the response, from what the extractor gives: the status is always OK (R101, R109). -/
def State.emitSymbols (p : CodecParams cw) (s : State cw) (r : EncStep) : State cw :=
  (s.setEnc r.unit).respondUnits (p.rom r.first :: (r.second.map p.rom).toList)

/-- ENC.BYTE (R101). -/
def encByte (p : CodecParams cw) (b : Byte) (s : State cw) : Host.Outcome (State cw) Fault Refusal :=
  if s.enc.cnt.toNat ≤ 4 then
    .next (s.emitSymbols p (encExtract s.enc b))
  else
    .next (s.drawFree.emitSymbols p (encExtractOpen s.freeCount))

/-- ENC.END's symbol: `(ENC_ACC << (5 - ENC_CNT)) & 0x1F`, the pending bits in the high positions (R102, C3). -/
def encPartial (e : EncUnit) : Symbol :=
  e.acc.setWidth 5 <<< (5 - e.cnt.toNat)

/-- ENC.END (R102). With ENC_CNT in 5..7 the symbol is free, and everything else is as the rule says (log entry 5). -/
def encEnd (p : CodecParams cw) (s : State cw) : Host.Outcome (State cw) Fault Refusal :=
  if s.enc.cnt = 0 then
    .next ((s.setEnc EncUnit.idle).respondUnits [])
  else if s.enc.cnt.toNat ≤ 4 then
    .next ((s.setEnc EncUnit.idle).respondUnits [p.rom (encPartial s.enc)])
  else
    .next ((s.drawFree.setEnc EncUnit.idle).respondUnits [p.rom (Config.freeEncFirst s.freeCount)])

/-- ENC.CLEAR (R103). -/
def encClear (s : State cw) : Host.Outcome (State cw) Fault Refusal :=
  .next ((s.setEnc EncUnit.idle).respond .ok 0 0)

end Sys2Proof.Codec

namespace Sys2Proof.Machine

/-- B32C's ENC.BYTE (R101). -/
def execEncByte (b : Byte) (s : State) : Host.Outcome State Fault Refusal :=
  Sys2Proof.Codec.encByte b32c b s

/-- B32C's ENC.END (R102). -/
def execEncEnd (s : State) : Host.Outcome State Fault Refusal :=
  Sys2Proof.Codec.encEnd b32c s

/-- B32C's ENC.CLEAR (R103). -/
def execEncClear (s : State) : Host.Outcome State Fault Refusal :=
  Sys2Proof.Codec.encClear s

end Sys2Proof.Machine
end

