-- ==== Sys2Proof/Machine/Utility.lean ====
section
/-! DEFINITION. The utility commands: ALPHA.READ and STATUS (spec 43_utility.md R190, R191), for any parameters, and B32C's.
Neither writes a unit's register. -/

namespace Sys2Proof.Codec

open Sys2Proof.Machine

variable {cw : Nat}

/-- ALPHA.READ (R190). -/
def alphaRead (p : CodecParams cw) (i : Symbol) (s : State cw) : Host.Outcome (State cw) Fault Refusal :=
  .next (s.respondUnits [p.rom i])

/-- STATUS (R191). -/
def status (s : State cw) : Host.Outcome (State cw) Fault Refusal :=
  .next (s.respond .ok 0 (statusInfo s))

end Sys2Proof.Codec

namespace Sys2Proof.Machine

/-- B32C's ALPHA.READ (R190). -/
def execAlphaRead (i : Symbol) (s : State) : Host.Outcome State Fault Refusal :=
  Sys2Proof.Codec.alphaRead b32c i s

/-- B32C's STATUS (R191). -/
def execStatus (s : State) : Host.Outcome State Fault Refusal :=
  Sys2Proof.Codec.status s

end Sys2Proof.Machine
end

