-- ==== Sys2Proof/Machine/Validator.lean ====
section
/-! DEFINITION. The validator unit: VAL.CHAR, VAL.END, VAL.CLEAR (spec 42_validator.md R162 to R164), for any parameters, and
B32C's. -/

namespace Sys2Proof.Codec

open Sys2Proof.Machine

variable {cw : Nat}

/-- VAL.CHAR (R162). -/
def valChar (p : CodecParams cw) (c : BitVec cw) (s : State cw) : Host.Outcome (State cw) Fault Refusal :=
  .next ((s.setVal (scanChar p s.val c)).respond .ok 0 0)

/-- VAL.END (R163). -/
def valEnd (s : State cw) : Host.Outcome (State cw) Fault Refusal :=
  .next ((s.setVal ValUnit.idle).respond (verdictStatus s.val) 0 (verdictInfo s.val))

/-- VAL.CLEAR (R164). -/
def valClear (s : State cw) : Host.Outcome (State cw) Fault Refusal :=
  .next ((s.setVal ValUnit.idle).respond .ok 0 0)

end Sys2Proof.Codec

namespace Sys2Proof.Machine

/-- B32C's VAL.CHAR (R162). -/
def execValChar (c : CharCode) (s : State) : Host.Outcome State Fault Refusal :=
  Sys2Proof.Codec.valChar b32c c s

/-- B32C's VAL.END (R163). -/
def execValEnd (s : State) : Host.Outcome State Fault Refusal :=
  Sys2Proof.Codec.valEnd s

/-- B32C's VAL.CLEAR (R164). -/
def execValClear (s : State) : Host.Outcome State Fault Refusal :=
  Sys2Proof.Codec.valClear s

end Sys2Proof.Machine
end

