-- ==== Sys2Proof/Machine/Dispatch.lean ====
section
/-! DEFINITION. One command's meaning, arm by arm (spec 30_encoding.md R80). -/

namespace Sys2Proof.Machine

def exec (i : Instr) (s : State) : Host.Outcome State Fault Refusal :=
  match i with
  | .encByte b => Sys2Proof.Machine.execEncByte b s
  | .encEnd => Sys2Proof.Machine.execEncEnd s
  | .encClear => Sys2Proof.Machine.execEncClear s
  | .decChar c => Sys2Proof.Machine.execDecChar c s
  | .decEnd => Sys2Proof.Machine.execDecEnd s
  | .decClear => Sys2Proof.Machine.execDecClear s
  | .valChar c => Sys2Proof.Machine.execValChar c s
  | .valEnd => Sys2Proof.Machine.execValEnd s
  | .valClear => Sys2Proof.Machine.execValClear s
  | .alphaRead i1 => Sys2Proof.Machine.execAlphaRead i1 s
  | .status => Sys2Proof.Machine.execStatus s

end Sys2Proof.Machine
end

