-- ==== Sys2Proof/Machine/Port.lean ====
section
/-! DEFINITION. The command port: `Step` of spec 30_encoding.md R83 on one word, the rising edge of R72, and a run of
commands at the transaction level (R73, R251). First for a block with any parameters (00_scope.md R7), then B32C's. -/

namespace Sys2Proof.Codec

open Sys2Proof.Machine

variable {cw : Nat}

/-- The case list of R83: a legal opcode's command on its operand's field. -/
def command (p : CodecParams cw) (o : Opcode) (opnd : BitVec 24) (s : State cw) : Host.Outcome (State cw) Fault Refusal :=
  match o with
  | .encByte => encByte p (byteOperand opnd) s
  | .encEnd => encEnd p s
  | .encClear => encClear s
  | .decChar => decChar p (charOperand opnd) s
  | .decEnd => decEnd s
  | .decClear => decClear s
  | .valChar => valChar p (charOperand opnd) s
  | .valEnd => valEnd s
  | .valClear => valClear s
  | .alphaRead => alphaRead p (indexOperand opnd) s
  | .status => status s

/-- `Step(state, w)` of R83 for the parameters CHAR_W = `cw`, ALPHABET and WS_SET (R7): the opcode's row first, then the
reserved bits, then the command. The response is in the response register. -/
def runCommand (p : CodecParams cw) (w : Word) (s : State cw) : Host.Outcome (State cw) Fault Refusal :=
  match Opcode.ofCode? (opcField w) with
  | none => .next (s.respondIllegal (opcField w))
  | some o =>
    if operandFitsOf cw o.form (operandField w) then
      command p o (operandField w) s
    else
      .next (s.respondIllegal (opcField w))

/-- The output port `cmd_ready` (R72, R240). -/
def cmdReady (p : PortSample) (s : State cw) : Bool :=
  !p.rst && (!s.rsp.valid || p.rspReady)

/-- A command is accepted at this edge (R71). -/
def accepts (p : PortSample) (s : State cw) : Bool :=
  !p.rst && p.cmdValid && cmdReady p s

/-- The response is taken at this edge (R71). -/
def takes (p : PortSample) (s : State cw) : Bool :=
  s.rsp.valid && p.rspReady

/-- The host's record of the responses it has taken (log entry 3). -/
def State.recordTaken (s : State cw) (p : PortSample) : State cw :=
  { s with taken := if takes p s then s.taken ++ [s.rsp.data] else s.taken }

/-- `rst` = 1 at a rising edge: every register takes its reset value (R72, R240). The host's record, the coming port
samples and the free values' index are no registers. -/
def State.resetRegisters (s : State cw) : State cw :=
  { s with enc := EncUnit.idle, dec := DecUnit.idle, val := ValUnit.idle, rsp := RspReg.empty }

/-- The response has been taken and no command replaces it: RSP_VALID is 0 and RSP_DATA stays (R72). -/
def State.dropResponse (s : State cw) : State cw :=
  { s with rsp := { s.rsp with valid := false } }

/-- One rising edge of `clk` (R72), where `run` is the block's `Step`: reset, else accept a command, else drop a taken
response, else hold. -/
def edgeWith (run : Word → State cw → Host.Outcome (State cw) Fault Refusal) (p : PortSample) (s : State cw) :
    Host.Outcome (State cw) Fault Refusal :=
  if p.rst then
    .next (s.recordTaken p).resetRegisters
  else if accepts p s then
    run p.cmdData (s.recordTaken p)
  else if takes p s then
    .next (s.recordTaken p).dropResponse
  else
    .next s

/-- What the host drives when the list of samples has run out: nothing (log entry 2). -/
def idleSample : PortSample :=
  { rst := false, cmdValid := false, cmdData := 0, rspReady := false }

/-- The sample of the next rising edge (log entry 2). -/
def State.nextSample (s : State cw) : PortSample :=
  s.port.headD idleSample

/-- The sample has been used. -/
def State.popSample (s : State cw) : State cw :=
  { s with port := s.port.tail }

/-- One rising edge of a block with the given parameters, with the port levels the host drives at it (R7, R72). -/
def step (p : CodecParams cw) (s : State cw) : Host.Outcome (State cw) Fault Refusal :=
  edgeWith (runCommand p) s.nextSample s.popSample

/-- A host that offers the command w and takes the response that may stand in the way. -/
def offerSample (w : Word) : PortSample :=
  { rst := false, cmdValid := true, cmdData := w, rspReady := true }

/-- The host offers the command w at the next rising edge, before all it would drive otherwise. -/
def State.offer (s : State cw) (w : Word) : State cw :=
  { s with port := offerSample w :: s.port }

/-- A run at the transaction level, where `run` is the block's `Step`: the commands one after another, and their responses
in order (R60, R73, R251). -/
def runWith (run : Word → State cw → Host.Outcome (State cw) Fault Refusal) :
    List Word → State cw → Host.Outcome (List Word × State cw) Fault Refusal
  | [], s => .next ([], s)
  | w :: ws, s =>
    match run w s with
    | .next s1 =>
      match runWith run ws s1 with
      | .next (rs, s2) => .next (s1.rsp.data :: rs, s2)
      | .fault f => .fault f
      | .refused r => .refused r
    | .fault f => .fault f
    | .refused r => .refused r

end Sys2Proof.Codec

namespace Sys2Proof.Machine

open Sys2Proof.Codec (cmdReady accepts takes idleSample offerSample)

/-- B32C's `Step(state, w)` (R83): the decoded command, or the ILLEGAL_COMMAND response. -/
def runCommand (w : Word) (s : State) : Host.Outcome State Fault Refusal :=
  match decode w with
  | .ok i => exec i s
  | .error e => .next (s.respondIllegal e.opc)

/-- One rising edge of B32C's `clk` (R72). -/
def clockEdge (p : PortSample) (s : State) : Host.Outcome State Fault Refusal :=
  Sys2Proof.Codec.edgeWith runCommand p s

/-- A run of B32C at the transaction level (R60, R73, R251). -/
def runCommands (ws : List Word) (s : State) : Host.Outcome (List Word × State) Fault Refusal :=
  Sys2Proof.Codec.runWith runCommand ws s

end Sys2Proof.Machine
end

