-- ==== Sys2Proof/Machine/Step.lean ====
section
/-! DEFINITION. One step of B32C: one rising edge of `clk` with the port levels the host drives at it (spec
30_encoding.md R72; log entries 1 and 2). -/

namespace Sys2Proof.Machine

/-- One rising edge. -/
def step (s : State) : Host.Outcome State Fault Refusal :=
  clockEdge s.nextSample s.popSample

/-- The host offers the word at the next rising edge, so that the next step accepts and runs it. A command is one 32-bit
word on `cmd_data` (R74); B32C holds no program (R37, R63; log entry 9). -/
def State.withFetchWord (s : State) (nbits w : Nat) : State :=
  s.offer (BitVec.ofNat 32 (w % 2 ^ nbits))

end Sys2Proof.Machine
end

