-- ==== Sys2Proof/Machine/Reference.lean ====
section
/-! DEFINITION. The source's three whole-message operations, transcribed over any parameters: Base32Encode (spec
40_encoder.md R100), Base32Decode (41_decoder.md R130), Base32Validate (42_validator.md R160). Accumulators are unbounded
naturals and keep the bits already emitted, as in the source (10_state.md R43). -/

namespace Sys2Proof

variable {cw : Nat}

/-- The inner loop of R100, `while n >= 5`: the symbol codes it emits and the bits left. The first argument bounds the
iterations; n of them suffice. -/
def encodeWhile (p : CodecParams cw) (acc : Nat) : Nat → Nat → List Byte × Nat
  | 0, n => ([], n)
  | fuel + 1, n =>
    if 5 ≤ n then
      let r := encodeWhile p acc fuel (n - 5)
      (p.rom (BitVec.ofNat 5 ((acc >>> (n - 5)) &&& 0x1F)) :: r.1, r.2)
    else
      ([], n)

/-- The outer loop of R100 and its final `if`. -/
def encodeLoop (p : CodecParams cw) : List Byte → Nat → Nat → List Byte
  | [], acc, n =>
    if 0 < n then [p.rom (BitVec.ofNat 5 ((acc <<< (5 - n)) &&& 0x1F))] else []
  | b :: bs, acc, n =>
    let acc1 := (acc <<< 8) ||| b.toNat
    let r := encodeWhile p acc1 (n + 8) (n + 8)
    r.1 ++ encodeLoop p bs acc1 r.2

/-- Base32Encode (R100): the symbol codes of a byte sequence. -/
def base32Encode (p : CodecParams cw) (bs : List Byte) : List Byte :=
  encodeLoop p bs 0 0

/-- What Base32Decode returns (R130). -/
inductive DecodeResult (cw : Nat) where
  | ok (bytes : List Byte)
  | invalidCharacter (c : BitVec cw)
  deriving DecidableEq, Repr

/-- The byte is emitted before what the rest of the message gives; a failure has no partial result (R130). -/
def DecodeResult.cons (b : Byte) : DecodeResult cw → DecodeResult cw
  | .ok bytes => .ok (b :: bytes)
  | .invalidCharacter c => .invalidCharacter c

/-- The loop of R130. -/
def decodeLoop (p : CodecParams cw) : List (BitVec cw) → Nat → Nat → DecodeResult cw
  | [], _, _ => .ok []
  | c :: cs, acc, n =>
    if (p.inv c).hit then
      let acc1 := (acc <<< 5) ||| (p.inv c).idx.toNat
      let n1 := n + 5
      if 8 ≤ n1 then
        (decodeLoop p cs acc1 (n1 - 8)).cons (BitVec.ofNat 8 ((acc1 >>> (n1 - 8)) &&& 0xFF))
      else
        decodeLoop p cs acc1 n1
    else
      .invalidCharacter c

/-- Base32Decode (R130). -/
def base32Decode (p : CodecParams cw) (cs : List (BitVec cw)) : DecodeResult cw :=
  decodeLoop p cs 0 0

/-- What Base32Validate returns (R160). -/
inductive Verdict (cw : Nat) where
  | valid
  | emptyInput
  | invalidAlphabetCharacter (c : BitVec cw)
  deriving DecidableEq, Repr

/-- Base32Validate (R160): emptiness first, then the first miss of the untrimmed string. -/
def base32Validate (p : CodecParams cw) (cs : List (BitVec cw)) : Verdict cw :=
  if cs.all (fun c => p.isWs c) then
    .emptyInput
  else
    match cs.find? (fun c => !(p.inv c).hit) with
    | some c => .invalidAlphabetCharacter c
    | none => .valid

/-- The bits of a value, the oldest (most significant) first (20_memory.md R53). -/
def msbBits {w : Nat} (v : BitVec w) : List Bool :=
  (List.range w).map (fun k => v.getMsbD k)

/-- A symbol code given back as a character code: `zext_CHAR_W` (R24). -/
def asChars (bs : List Byte) : List (BitVec cw) :=
  bs.map (fun b => b.setWidth cw)

end Sys2Proof
end

