-- ==== Sys2Proof/Machine/Protocol.lean ====
section
/-! DEFINITION. The host's message protocols: which commands a message is, and how its result is read off the responses
(spec 40_encoder.md R104, 41_decoder.md R134, 42_validator.md R165; the pseudo-instructions of 30_encoding.md R86), for a
block with any parameters and for B32C. -/

namespace Sys2Proof.Codec

open Sys2Proof.Machine

variable {cw : Nat}

/-- R104: the output units of all the responses, in response order. -/
def readEncoding (rs : List Word) : List Byte :=
  rs.flatMap outputUnits

/-- R134: the verdict is the last response's; the bytes are the output units in response order. -/
def readDecoding (rs : List Word) : DecodeResult cw :=
  match rs.getLast? with
  | some r =>
    if rspStatus r == RspStatus.invalidCharacter.code then .invalidCharacter (rspChar r)
    else .ok (rs.flatMap outputUnits)
  | none => .ok []

/-- R165: the verdict is the last response's. -/
def readVerdict (rs : List Word) : Verdict cw :=
  match rs.getLast? with
  | some r =>
    if rspStatus r == RspStatus.emptyInput.code then .emptyInput
    else if rspStatus r == RspStatus.invalidAlphabetCharacter.code then .invalidAlphabetCharacter (rspChar r)
    else .valid
  | none => .valid

/-- The words of a message are sent, and the responses read; `run` is the block's `Step`. -/
def runMessage {α : Type} (run : Word → State cw → Host.Outcome (State cw) Fault Refusal) (ws : List Word)
    (read : List Word → α) (s : State cw) : Host.Outcome (α × State cw) Fault Refusal :=
  match runWith run ws s with
  | .next (rs, t) => .next (read rs, t)
  | .fault f => .fault f
  | .refused r => .refused r

/-- The words of an encode message: one ENC.BYTE per byte, then ENC.END (R104). -/
def encodeWords (bs : List Byte) : List Word :=
  bs.map (fun b => commandWord .encByte (zext24 b)) ++ [commandWord .encEnd 0]

/-- The words of a decode message: one DEC.CHAR per character, then DEC.END (R134). -/
def decodeWords (cs : List (BitVec cw)) : List Word :=
  cs.map (fun c => commandWord .decChar (zext24 c)) ++ [commandWord .decEnd 0]

/-- The words of a validate message: one VAL.CHAR per character, then VAL.END (R165). -/
def validateWords (cs : List (BitVec cw)) : List Word :=
  cs.map (fun c => commandWord .valChar (zext24 c)) ++ [commandWord .valEnd 0]

/-- The host's `encode(bytes)` (R104) on a block with the given parameters. -/
def hostEncode (p : CodecParams cw) (bs : List Byte) (s : State cw) :
    Host.Outcome (List Byte × State cw) Fault Refusal :=
  runMessage (runCommand p) (encodeWords bs) readEncoding s

/-- The host's `decode(text)` (R134) on a block with the given parameters; it sends every character (log entry 14). -/
def hostDecode (p : CodecParams cw) (cs : List (BitVec cw)) (s : State cw) :
    Host.Outcome (DecodeResult cw × State cw) Fault Refusal :=
  runMessage (runCommand p) (decodeWords cs) readDecoding s

/-- The host's `validate(text)` (R165) on a block with the given parameters. -/
def hostValidate (p : CodecParams cw) (cs : List (BitVec cw)) (s : State cw) :
    Host.Outcome (Verdict cw × State cw) Fault Refusal :=
  runMessage (runCommand p) (validateWords cs) readVerdict s

end Sys2Proof.Codec

namespace Sys2Proof.Machine

open Sys2Proof.Codec (readEncoding readDecoding readVerdict runMessage)

/-- ENC.MSG: one ENC.BYTE per byte, then ENC.END (R86, R104). -/
def encodeMessage (bs : List Byte) : List Instr :=
  bs.map Instr.encByte ++ [.encEnd]

/-- DEC.MSG: one DEC.CHAR per character, then DEC.END (R86, R134). -/
def decodeMessage (cs : List CharCode) : List Instr :=
  cs.map Instr.decChar ++ [.decEnd]

/-- VAL.MSG: one VAL.CHAR per character, then VAL.END (R86, R165). -/
def validateMessage (cs : List CharCode) : List Instr :=
  cs.map Instr.valChar ++ [.valEnd]

/-- UNITS.CLEAR (R86). -/
def unitsClear : List Instr :=
  [.encClear, .decClear, .valClear]

/-- ALPHA.DUMP (R86). -/
def alphaDump : List Instr :=
  (List.range 32).map (fun i => .alphaRead (BitVec.ofNat 5 i))

/-- The host's `encode(bytes)` on B32C (R104). -/
def hostEncode (bs : List Byte) (s : State) : Host.Outcome (List Byte × State) Fault Refusal :=
  runMessage runCommand ((encodeMessage bs).map encode) readEncoding s

/-- The host's `decode(text)` on B32C (R134); it sends every character (log entry 14). -/
def hostDecode (cs : List CharCode) (s : State) : Host.Outcome (DecodeResult 21 × State) Fault Refusal :=
  runMessage runCommand ((decodeMessage cs).map encode) readDecoding s

/-- The host's `validate(text)` on B32C (R165). -/
def hostValidate (cs : List CharCode) (s : State) : Host.Outcome (Verdict 21 × State) Fault Refusal :=
  runMessage runCommand ((validateMessage cs).map encode) readVerdict s

end Sys2Proof.Machine
end

