-- ==== Sys2Proof/Machine/Assembler.lean ====
section
/-! DEFINITION. The assembler of B32C-1 (spec 30_encoding.md R85, R86): what a line means as command words, and how a line
of text is read. What R85 and R86 leave open of the text's form is log entry 12. -/

namespace Sys2Proof

/-- An operand as it is written (R85). -/
inductive AsmOperand where
  /-- No operand. -/
  | absent
  /-- An integer, decimal or with a `0x` prefix (for the forms CH and IX: log entry 12). -/
  | int (n : Nat)
  /-- A character literal, by its code. -/
  | char (n : Nat)
  /-- `U+` and hexadecimal digits. -/
  | codePoint (n : Nat)
  deriving DecidableEq, Repr

/-- One line: a command, the `.word` directive, a pseudo-instruction of R86, or nothing. -/
inductive AsmLine where
  | empty
  | command (o : Opcode) (x : AsmOperand)
  | word (n : Nat)
  | encMsg (bytes : List Nat)
  | decMsg (codes : List Nat)
  | valMsg (codes : List Nat)
  | unitsClear
  | alphaDump
  deriving DecidableEq, Repr

/-- The value of an operand that the form admits; none is an assembly error (R85): a B8 or IX operand is an integer, a CH
operand any of the three, an NO command takes no operand. -/
def AsmOperand.value? (x : AsmOperand) (f : OperandForm) : Option Nat :=
  match f, x with
  | .no, .absent => some 0
  | .no, _ => none
  | .ch, .int n => some n
  | .ch, .char n => some n
  | .ch, .codePoint n => some n
  | .ch, .absent => none
  | .b8, .int n => some n
  | .b8, _ => none
  | .ix, .int n => some n
  | .ix, _ => none

/-- A value within the form's field; out of range is an assembly error (R85). -/
def inField (f : OperandForm) (n : Nat) : Bool :=
  decide (n < 2 ^ f.fieldWidth)

/-- The command of an opcode and an operand. -/
def assembleCommand (o : Opcode) (x : AsmOperand) : Option Instr :=
  match x.value? o.form with
  | some n => if inField o.form n then some (o.toInstr (BitVec.ofNat 24 n)) else none
  | none => none

/-- The elements of a message, each within its field. -/
def elements (f : OperandForm) (w : Nat) (ns : List Nat) : Option (List (BitVec w)) :=
  if ns.all (inField f) then some (ns.map (BitVec.ofNat w)) else none

/-- What a line assembles to; none is an assembly error (R85, R86). -/
def assemble : AsmLine → Option (List Word)
  | .empty => some []
  | .command o x => (assembleCommand o x).map (fun i => [encode i])
  | .word n => if n < 2 ^ 32 then some [BitVec.ofNat 32 n] else none
  | .encMsg ns => (elements .b8 8 ns).map (fun bs => (Machine.encodeMessage bs).map encode)
  | .decMsg ns => (elements .ch 21 ns).map (fun cs => (Machine.decodeMessage cs).map encode)
  | .valMsg ns => (elements .ch 21 ns).map (fun cs => (Machine.validateMessage cs).map encode)
  | .unitsClear => some (Machine.unitsClear.map encode)
  | .alphaDump => some (Machine.alphaDump.map encode)

/-! The text of a line. A reader takes the characters left and gives what it read and the characters after it. -/

/-- A blank between the parts of a line (log entry 12). -/
def isBlankChar (c : Char) : Bool :=
  c == ' ' || c == '\t'

/-- The blanks at the front are skipped. -/
def skipBlanks (cs : List Char) : List Char :=
  cs.dropWhile isBlankChar

/-- The value of a decimal digit. -/
def decDigit? (c : Char) : Option Nat :=
  if '0'.toNat ≤ c.toNat && c.toNat ≤ '9'.toNat then some (c.toNat - '0'.toNat) else none

/-- The value of a hexadecimal digit, in either case. -/
def hexDigit? (c : Char) : Option Nat :=
  if 'a'.toNat ≤ c.toNat && c.toNat ≤ 'f'.toNat then some (c.toNat - 'a'.toNat + 10)
  else if 'A'.toNat ≤ c.toNat && c.toNat ≤ 'F'.toNat then some (c.toNat - 'A'.toNat + 10)
  else decDigit? c

/-- The digits at the front: how many, their value, and the characters after them. -/
def readDigits (base : Nat) (digit? : Char → Option Nat) : List Char → Nat → Nat → Nat × Nat × List Char
  | [], k, v => (k, v, [])
  | c :: cs, k, v =>
    match digit? c with
    | some d => readDigits base digit? cs (k + 1) (v * base + d)
    | none => (k, v, c :: cs)

/-- At least one and at most `most` digits. -/
def readNumber (base most : Nat) (digit? : Char → Option Nat) (cs : List Char) : Option (Nat × List Char) :=
  let r := readDigits base digit? cs 0 0
  if 1 ≤ r.1 && r.1 ≤ most then some r.2 else none

/-- An integer: with the prefix `0x` hexadecimal, else decimal, with any number of leading zeros. R85 gives the two notations
for a B8 operand (and so for an element of ENC.MSG, R86); that a CH or IX operand and the operand of `.word` are read the
same way is the model's choice (DESIGN CHOICE, log entry 12). -/
def readInt (cs : List Char) : Option (Nat × List Char) :=
  match cs with
  | '0' :: 'x' :: rest => readNumber 16 rest.length hexDigit? rest
  | _ => readNumber 10 cs.length decDigit? cs

/-- One printable ASCII character other than the quote and the backslash (R85). -/
def isLiteralChar (c : Char) : Bool :=
  0x20 ≤ c.toNat && c.toNat ≤ 0x7E && c != '\'' && c != '\\'

/-- An operand of R85: a character literal, `U+` and 1 to 6 hexadecimal digits, or an integer, whose notation is that of
`readInt` for every form (DESIGN CHOICE for CH and IX, log entry 12). -/
def readOperand (cs : List Char) : Option (AsmOperand × List Char) :=
  match cs with
  | '\'' :: c :: '\'' :: rest => if isLiteralChar c then some (.char c.toNat, rest) else none
  | 'U' :: '+' :: rest => (readNumber 16 6 hexDigit? rest).map (fun r => (.codePoint r.1, r.2))
  | _ => (readInt cs).map (fun r => (.int r.1, r.2))

/-- Where a string reader stands. -/
inductive StrMode where
  /-- In the string's text. -/
  | plain
  /-- After a backslash. -/
  | escape
  /-- After `\u`, before the opening brace. -/
  | brace
  /-- In a code's hexadecimal digits: how many so far, and their value. -/
  | code (k v : Nat)
  deriving DecidableEq, Repr

/-- The text of a string after its opening quote, with the escapes of R86; the codes so far stand newest first. The braces
of an escape are the characters 0x7B and 0x7D. -/
def readStringBody : List Char → StrMode → List Nat → Option (List Nat × List Char)
  | [], _, _ => none
  | c :: cs, .plain, acc =>
    if c == '"' then some (acc.reverse, cs)
    else if c == '\\' then readStringBody cs .escape acc
    else readStringBody cs .plain (c.toNat :: acc)
  | c :: cs, .escape, acc =>
    if c == 't' then readStringBody cs .plain (0x09 :: acc)
    else if c == 'n' then readStringBody cs .plain (0x0A :: acc)
    else if c == '"' then readStringBody cs .plain (0x22 :: acc)
    else if c == '\\' then readStringBody cs .plain (0x5C :: acc)
    else if c == 'u' then readStringBody cs .brace acc
    else none
  | c :: cs, .brace, acc =>
    if c.toNat == 0x7B then readStringBody cs (.code 0 0) acc else none
  | c :: cs, .code k v, acc =>
    if c.toNat == 0x7D then
      if k == 0 then none else readStringBody cs .plain (v :: acc)
    else
      match hexDigit? c with
      | some d => readStringBody cs (.code (k + 1) (v * 16 + d)) acc
      | none => none

/-- A string in double quotes. -/
def readString (cs : List Char) : Option (List Nat × List Char) :=
  match cs with
  | '"' :: rest => readStringBody rest .plain []
  | _ => none

/-- Nothing but blanks and a comment is left (R85). -/
def lineEnds (cs : List Char) : Bool :=
  match skipBlanks cs with
  | [] => true
  | c :: _ => c == ';'

/-- The integers of ENC.MSG after the first, each after a comma; the first argument bounds their number. -/
def readMoreInts : Nat → List Char → List Nat → Option (List Nat)
  | 0, _, _ => none
  | fuel + 1, cs, acc =>
    match skipBlanks cs with
    | ',' :: rest =>
      match readInt (skipBlanks rest) with
      | some (n, rest1) => readMoreInts fuel rest1 (n :: acc)
      | none => none
    | _ => if lineEnds cs then some acc.reverse else none

/-- The operands of ENC.MSG: none, or integers separated by commas (R86). -/
def readInts (cs : List Char) : Option (List Nat) :=
  if lineEnds cs then some []
  else
    match readInt (skipBlanks cs) with
    | some (n, rest) => readMoreInts (cs.length + 1) rest [n]
    | none => none

/-- What follows is read and nothing else is left on the line. -/
def onlyThing {α : Type} (r : Option (α × List Char)) : Option α :=
  match r with
  | some (x, rest) => if lineEnds rest then some x else none
  | none => none

/-- The command whose mnemonic, in upper case, is the word (R85). -/
def mnemonicOpcode? (word : List Char) : Option Opcode :=
  (opcodeTable.find? (fun r => r.mnemonic.toList == word)).map (fun r => r.opcode)

/-- A line whose first word has been read; the characters after it are given. -/
def parseAfter (word rest : List Char) : Option AsmLine :=
  if word == ".word".toList then (onlyThing (readInt (skipBlanks rest))).map AsmLine.word
  else if word == "ENC.MSG".toList then (readInts rest).map AsmLine.encMsg
  else if word == "DEC.MSG".toList then (onlyThing (readString (skipBlanks rest))).map AsmLine.decMsg
  else if word == "VAL.MSG".toList then (onlyThing (readString (skipBlanks rest))).map AsmLine.valMsg
  else if word == "UNITS.CLEAR".toList then (if lineEnds rest then some .unitsClear else none)
  else if word == "ALPHA.DUMP".toList then (if lineEnds rest then some .alphaDump else none)
  else
    match mnemonicOpcode? word with
    | none => none
    | some o =>
      if lineEnds rest then some (.command o .absent)
      else (onlyThing (readOperand (skipBlanks rest))).map (AsmLine.command o)

/-- One line of text (R85); none is an assembly error. -/
def parseLine (line : List Char) : Option AsmLine :=
  if lineEnds line then some .empty
  else
    let cs := skipBlanks line
    parseAfter (cs.takeWhile (fun c => !isBlankChar c && c != ';')) (cs.dropWhile (fun c => !isBlankChar c && c != ';'))

/-- The words of one line of text. -/
def assembleLine (line : List Char) : Option (List Word) :=
  (parseLine line).bind assemble

/-- The lines of a text; each call's second argument is the line so far, newest character first. -/
def splitLines : List Char → List Char → List (List Char)
  | [], cur => [cur.reverse]
  | c :: cs, cur => if c == '\n' then cur.reverse :: splitLines cs [] else splitLines cs (c :: cur)

/-- The words of a list of lines, in order; one bad line is an assembly error. -/
def assembleLines : List (List Char) → Option (List Word)
  | [] => some []
  | l :: ls =>
    match assembleLine l, assembleLines ls with
    | some ws, some rest => some (ws ++ rest)
    | _, _ => none

/-- The words of a program's text: one command per line (R85). -/
def assembleText (text : String) : Option (List Word) :=
  assembleLines (splitLines text.toList [])

end Sys2Proof
end

