-- ==== Sys2Proof/Machine/Observe.lean ====
section
/-! DEFINITION. What an observer of the port sees over k rising edges (spec 20_memory.md R60, 30_encoding.md R71, R73): the
command words accepted, and the responses given, taken or not. -/

namespace Sys2Proof.Machine

open Sys2Proof.Codec (accepts)

/-- The words accepted at the next k edges, in order (R71). -/
def acceptedWords : Nat → State → List Word
  | 0, _ => []
  | k + 1, s =>
    match step s with
    | .next t =>
      if accepts s.nextSample s.popSample then s.nextSample.cmdData :: acceptedWords k t else acceptedWords k t
    | .fault _ => []
    | .refused _ => []

/-- The responses given so far that no reset has dropped: those taken, then the one that waits. -/
def State.responses (s : State) : List Word :=
  if s.rsp.valid then s.taken ++ [s.rsp.data] else s.taken

end Sys2Proof.Machine
end

