-- ==== Sys2Proof/Safety.lean ====
section
/-! DEFINITION. What holds of B32C at every command boundary reached from reset (spec 10_state.md R20, R26 to R32, R35, R41;
30_encoding.md R77 to R79; 60_exceptions.md R215), and what it is for a unit to be idle (R40, R241). -/

namespace Sys2Proof.Machine

/-- ENC_CNT ≤ 4 and ENC_ACC < 2^ENC_CNT (R26, R27). -/
abbrev EncUnit.Ok (e : EncUnit) : Prop :=
  e.cnt.toNat ≤ 4 ∧ e.acc.toNat < 2 ^ e.cnt.toNat

/-- DEC_ACC < 2^DEC_CNT (R28); no pending bit in sticky error (R32); DEC_ERRCH = 0 without it (R31). -/
abbrev DecUnit.Ok {cw : Nat} (d : DecUnit cw) : Prop :=
  d.acc.toNat < 2 ^ d.cnt.toNat ∧ (d.err = true → d.acc = 0 ∧ d.cnt = 0) ∧ (d.err = false → d.errch = 0)

/-- VAL_BADCH = 0 while VAL_BAD = 0 (R35). -/
abbrev ValUnit.Ok {cw : Nat} (v : ValUnit cw) : Prop :=
  v.bad = false → v.badch = 0

/-- A word that a response may be: STATUS ≤ 5, COUNT ≤ 2, RSVD = 0 (R77, R78, R215). -/
abbrev ResponseOk (r : Word) : Prop :=
  (rspStatus r).toNat ≤ 5 ∧ (rspCount r).toNat ≤ 2 ∧ rspRsvd r = 0

end Sys2Proof.Machine

namespace Sys2Proof.Codec

open Sys2Proof.Machine

variable {cw : Nat}

/-- The values reachable at command boundaries (the table of R20). -/
abbrev State.Inv (s : State cw) : Prop :=
  s.enc.Ok ∧ s.dec.Ok ∧ s.val.Ok ∧ ResponseOk s.rsp.data

/-- Every unit is idle (R241). -/
abbrev State.AllIdle (s : State cw) : Prop :=
  s.enc = EncUnit.idle ∧ s.dec = DecUnit.idle ∧ s.val = ValUnit.idle

end Sys2Proof.Codec
end

