-- ==== Sys2Proof/Certificates/Slice0/Obligations.lean ====
section
/-! DEFINITION. The statements about B32C for the provers: each docstring names the rule of spec/ it formalises, or the
sections it rests on. -/

open Sys2Proof Sys2Proof.Machine
open Sys2Proof.Codec (accepts cmdReady)

/-! ## Encoding -/

/-- Decoding an encoded command gives it back, whatever its operand, and sets no reserved bit (30_encoding.md section 5). -/
def Obligations.DecodeOfEncodeIsTheCommand : Prop :=
  ∀ i : Instr, i.wf = true ∧ decode (encode i) = .ok i

/-- A word that decodes is the encoding of what it decodes to: no two words are one command (30_encoding.md section 5). -/
def Obligations.EncodeOfDecodeIsTheWord : Prop :=
  ∀ (w : Word) (i : Instr), decode w = .ok i → encode i = w

/-- R83's last paragraph: the decoder built from opcode_table.json reads every word as the decode procedure does, and a word
matches at most one row. -/
def Obligations.TableDecoderAgreesWithTheProcedure : Prop :=
  ∀ w : Word,
    (∀ i : Instr, decode w = .ok i ↔ tableDecode w = some i) ∧
    (∀ r1 ∈ opcodeTable, ∀ r2 ∈ opcodeTable, r1.hits w = true → r2.hits w = true → r1 = r2)

/-- R81 (and R80's OPC column): the legal OPC values are the eleven of the table, the illegal ones are the ranges R81 lists,
245 in all, and an all-zero word is illegal. -/
def Obligations.LegalOpcodesAreTheElevenOfTheTable : Prop :=
  (∀ b : BitVec 8, (∃ o : Opcode, o.code = b) ↔
    b.toNat ∈ [0x01, 0x02, 0x03, 0x11, 0x12, 0x13, 0x21, 0x22, 0x23, 0x31, 0x32]) ∧
  (∀ b : BitVec 8, (∀ o : Opcode, o.code ≠ b) ↔
    b.toNat = 0x00 ∨ (0x04 ≤ b.toNat ∧ b.toNat ≤ 0x10) ∨ (0x14 ≤ b.toNat ∧ b.toNat ≤ 0x20) ∨
    (0x24 ≤ b.toNat ∧ b.toNat ≤ 0x30) ∨ 0x33 ≤ b.toNat) ∧
  ((List.range 256).filter (fun n => (Opcode.ofCode? (BitVec.ofNat 8 n)).isNone)).length = 245 ∧
  (∀ s : State, runCommand 0 s = .next { s with rsp := { valid := true, data := 0x40000000 } })

/-- Words written out from R74, R75, R80 and the command rules decode to their commands (a check on fixed words). -/
def Obligations.WordsOfTheSpecDecodeToTheirCommands : Prop :=
  decode 0x010000FF = .ok (.encByte 0xFF) ∧ decode 0x02000000 = .ok .encEnd ∧
  decode 0x111FFFFF = .ok (.decChar 0x1FFFFF) ∧ decode 0x21003000 = .ok (.valChar 0x3000) ∧
  decode 0x3100001F = .ok (.alphaRead 31) ∧ decode 0x32000000 = .ok .status ∧
  decode 0x01000100 = .error (.reservedBits 0x01) ∧ decode 0x00000000 = .error (.unassignedOpcode 0x00)

/-- R76 and R213: a word whose OPC no row has, or with a reserved bit of its form set, changes no register of a unit, in
every state (so in sticky error too), and gets ILLEGAL_COMMAND with DATA[7:0] = OPC. -/
def Obligations.IllegalWordChangesNothingAndEchoesOpc : Prop :=
  ∀ (w : Word) (s : State),
    ((∀ o : Opcode, o.code ≠ w.extractLsb' 24 8) ∨
      (∃ o : Opcode, o.code = w.extractLsb' 24 8 ∧ 2 ^ o.form.fieldWidth ≤ (w.extractLsb' 0 24).toNat)) →
    runCommand w s =
      .next { s with rsp := { valid := true, data := respWord .illegalCommand 0 ((w.extractLsb' 24 8).setWidth 24) } }

/-- R77: the place of each field of a response word. -/
def Obligations.ResponseWordHoldsItsFields : Prop :=
  ∀ (st : RspStatus) (n : BitVec 2) (d : BitVec 24),
    (respWord st n d).toNat = st.code.toNat * 2 ^ 28 + n.toNat * 2 ^ 26 + d.toNat

/-- R85: "The assembler never sets a reserved bit": whatever a line other than `.word` assembles to is a list of words that
decode (30_encoding.md section 6). -/
def Obligations.AssembledLinesDecode : Prop :=
  ∀ (l : AsmLine) (ws : List Word), assemble l = some ws → (∀ n, l ≠ .word n) →
    ∀ w ∈ ws, ∃ i : Instr, decode w = .ok i

/-! ## The alphabet ROM, the inverse lookup and the whitespace set -/

/-- R21 and R23: the ROM holds "BCDFGHJKMNPQRSTVWXYZ23456789AE01" in order, as ASCII codes (which the spec takes from general
knowledge; log entry 8); the entries are distinct codes below 0x80. -/
def Obligations.RomHoldsTheAlphabet : Prop :=
  (List.range 32).map (fun i => Char.ofNat (rom (BitVec.ofNat 5 i)).toNat) = "BCDFGHJKMNPQRSTVWXYZ23456789AE01".toList ∧
  (∀ i j : Symbol, rom i = rom j → i = j) ∧ (∀ i : Symbol, (rom i).toNat < 0x80)

/-- R24, for every choice of the parameters that R7 admits: INV finds exactly the entries, with their index, and answers
(0, 0) for every other code. -/
def Obligations.InverseLookupIsExact : Prop :=
  ∀ (cw : Nat) (p : CodecParams cw), p.wf = true → ∀ c : BitVec cw,
    (∀ i : Symbol, p.inv c = { hit := true, idx := i } ↔ (p.rom i).setWidth cw = c) ∧
    ((∀ i : Symbol, (p.rom i).setWidth cw ≠ c) → p.inv c = { hit := false, idx := 0 })

/-- R25, which the spec derives: of all codes, only the digits and the uppercase letters other than I, L, O and U hit. -/
def Obligations.OnlyDigitsAndAlphabetLettersHit : Prop :=
  ∀ c : CharCode, (inv c).hit = true ↔
    (0x30 ≤ c.toNat ∧ c.toNat ≤ 0x39) ∨
    (0x41 ≤ c.toNat ∧ c.toNat ≤ 0x5A ∧ c.toNat ≠ 0x49 ∧ c.toNat ≠ 0x4C ∧ c.toNat ≠ 0x4F ∧ c.toNat ≠ 0x55)

/-- R161, whose list the spec takes from general knowledge (log entry 8): WS_SET is the 25 codes listed, and it is disjoint
from the alphabet. -/
def Obligations.WhitespaceIsTheListedCodes : Prop :=
  (∀ c : CharCode, isWs c = true ↔
    (0x0009 ≤ c.toNat ∧ c.toNat ≤ 0x000D) ∨ c.toNat = 0x0020 ∨ c.toNat = 0x00A0 ∨ c.toNat = 0x1680 ∨
    (0x2000 ≤ c.toNat ∧ c.toNat ≤ 0x200A) ∨ c.toNat = 0x2028 ∨ c.toNat = 0x2029 ∨ c.toNat = 0x202F ∨
    c.toNat = 0x205F ∨ c.toNat = 0x3000 ∨ c.toNat = 0xFEFF) ∧
  b32c.wsSet.length = 25 ∧ b32c.wsSet.Nodup ∧ (∀ c : CharCode, isWs c = true → (inv c).hit = false)

/-! ## The encoder's commands -/

/-- R101, the pseudocode with a = {ENC_ACC, BYTE} and n = ENC_CNT + 8 as numbers: the symbols emitted, ENC's new registers,
the response, and nothing else changed. It holds where ENC_CNT ≤ 4 and ENC_ACC < 2^ENC_CNT (R26, R27), an invariant. -/
def Obligations.EncByteEmitsItsWholeSymbols : Prop :=
  ∀ (s : State) (b : Byte),
    decode (0x01000000 + b.setWidth 32) = .ok (.encByte b) ∧
    (s.enc.Ok →
    let a := s.enc.acc.toNat * 2 ^ 8 + b.toNat
    let n := s.enc.cnt.toNat + 8
    (n < 10 → exec (.encByte b) s = .next
      { s with
        enc := { acc := BitVec.ofNat 4 (a % 2 ^ (n - 5)), cnt := BitVec.ofNat 3 (n - 5) }
        rsp := { valid := true, data := respWord .ok 1 (packUnits [rom (BitVec.ofNat 5 (a / 2 ^ (n - 5)))]) } }) ∧
    (10 ≤ n → exec (.encByte b) s = .next
      { s with
        enc := { acc := BitVec.ofNat 4 (a % 2 ^ (n - 10)), cnt := BitVec.ofNat 3 (n - 10) }
        rsp := { valid := true, data := respWord .ok 2 (packUnits
          [rom (BitVec.ofNat 5 (a / 2 ^ (n - 5))), rom (BitVec.ofNat 5 (a / 2 ^ (n - 10)))]) } }))

/-- The mux table of R101, which the spec derives: the extractor's windows for each ENC_CNT, bit by bit. -/
def Obligations.EncByteIsItsMuxTable : Prop :=
  ∀ (s : State) (b : Byte),
    let e := s.enc.acc
    (s.enc.cnt = 0 → exec (.encByte b) s = .next
      { s with
        enc := { acc := 0#1 ++ b.extractLsb' 0 3, cnt := 3 }
        rsp := { valid := true, data := respWord .ok 1 (packUnits [rom (b.extractLsb' 3 5)]) } }) ∧
    (s.enc.cnt = 1 → exec (.encByte b) s = .next
      { s with
        enc := { acc := b.extractLsb' 0 4, cnt := 4 }
        rsp := { valid := true, data := respWord .ok 1 (packUnits [rom (e.extractLsb' 0 1 ++ b.extractLsb' 4 4)]) } }) ∧
    (s.enc.cnt = 2 → exec (.encByte b) s = .next
      { s with
        enc := { acc := 0, cnt := 0 }
        rsp := { valid := true, data := respWord .ok 2 (packUnits
          [rom (e.extractLsb' 0 2 ++ b.extractLsb' 5 3), rom (b.extractLsb' 0 5)]) } }) ∧
    (s.enc.cnt = 3 → exec (.encByte b) s = .next
      { s with
        enc := { acc := 0#3 ++ b.extractLsb' 0 1, cnt := 1 }
        rsp := { valid := true, data := respWord .ok 2 (packUnits
          [rom (e.extractLsb' 0 3 ++ b.extractLsb' 6 2), rom (b.extractLsb' 1 5)]) } }) ∧
    (s.enc.cnt = 4 → exec (.encByte b) s = .next
      { s with
        enc := { acc := 0#2 ++ b.extractLsb' 0 2, cnt := 2 }
        rsp := { valid := true, data := respWord .ok 2 (packUnits
          [rom (e ++ b.extractLsb' 7 1), rom (b.extractLsb' 2 5)]) } })

/-- The model's choice for ENC_CNT in 5..7, where the spec gives no rule (93_implementation_defined.md U3; log entry 5):
ENC.BYTE completes with OK, one or two symbols of the ROM and some ENC registers, and ENC.END with OK, one symbol of the
ROM and ENC idle; nothing else changes but the index of the free values. -/
def Obligations.EncoderCompletesOutsideItsRules : Prop :=
  ∀ (s : State), 4 < s.enc.cnt.toNat →
    (∀ b : Byte, ∃ (e : EncUnit) (i0 : Symbol) (more : List Symbol), more.length ≤ 1 ∧
      exec (.encByte b) s = .next
        { s with
          enc := e
          rsp := { valid := true
                   data := respWord .ok (BitVec.ofNat 2 (1 + more.length)) (packUnits (rom i0 :: more.map rom)) }
          freeCount := s.freeCount + 1 }) ∧
    (∃ i : Symbol, exec .encEnd s = .next
      { s with
        enc := { acc := 0, cnt := 0 }
        rsp := { valid := true, data := respWord .ok 1 (packUnits [rom i]) }
        freeCount := s.freeCount + 1 })

/-- R102, the pseudocode as numbers: the pending bits go to the high positions of the last symbol, and ENC is emptied. -/
def Obligations.EncEndEmitsThePartialSymbol : Prop :=
  decode 0x02000000 = .ok .encEnd ∧
  ∀ s : State, s.enc.Ok →
    (s.enc.cnt = 0 → exec .encEnd s = .next
      { s with enc := { acc := 0, cnt := 0 }, rsp := { valid := true, data := 0x00000000 } }) ∧
    (s.enc.cnt ≠ 0 → exec .encEnd s = .next
      { s with
        enc := { acc := 0, cnt := 0 }
        rsp := { valid := true, data := respWord .ok 1 (packUnits
          [rom (BitVec.ofNat 5 (s.enc.acc.toNat * 2 ^ (5 - s.enc.cnt.toNat)))]) } })

/-- R103, R133 and R164: each CLEAR puts its unit at the reset state, responds OK with no data, and changes nothing else. -/
def Obligations.ClearPutsTheUnitAtReset : Prop :=
  decode 0x03000000 = .ok .encClear ∧ decode 0x13000000 = .ok .decClear ∧ decode 0x23000000 = .ok .valClear ∧
  ∀ s : State,
    exec .encClear s = .next { s with enc := State.reset.enc, rsp := { valid := true, data := 0x00000000 } } ∧
    exec .decClear s = .next { s with dec := State.reset.dec, rsp := { valid := true, data := 0x00000000 } } ∧
    exec .valClear s = .next { s with val := State.reset.val, rsp := { valid := true, data := 0x00000000 } }

/-- R108: every output unit of ENC.BYTE and ENC.END is a ROM entry, in every state. -/
def Obligations.EncoderEmitsOnlyRomCodes : Prop :=
  ∀ (s t : State) (b : Byte), (exec (.encByte b) s = .next t ∨ exec .encEnd s = .next t) →
    ∀ u ∈ outputUnits t.rsp.data, ∃ i : Symbol, u = rom i

/-! ## The decoder's commands -/

/-- R131: DEC.CHAR in its three cases, with a = {DEC_ACC, v} and n = DEC_CNT + 5 as numbers: ABORTED in sticky error and
nothing changed; on a miss the sticky error with the character; on a hit the fold, and the byte when 8 bits are pending.
The hit is stated where DEC_ACC < 2^DEC_CNT (R28), an invariant. -/
def Obligations.DecCharFoldsDetectsOrAborts : Prop :=
  ∀ (s : State) (c : CharCode),
    decode (0x11000000 + c.setWidth 32) = .ok (.decChar c) ∧
    (s.dec.err = true → exec (.decChar c) s = .next { s with rsp := { valid := true, data := 0x50000000 } }) ∧
    (s.dec.err = false → (inv c).hit = false → exec (.decChar c) s = .next
      { s with
        dec := { acc := 0, cnt := 0, err := true, errch := c }
        rsp := { valid := true, data := respWord .invalidCharacter 0 (c.setWidth 24) } }) ∧
    (s.dec.err = false → (inv c).hit = true → s.dec.Ok →
      let a := s.dec.acc.toNat * 2 ^ 5 + (inv c).idx.toNat
      let n := s.dec.cnt.toNat + 5
      (n < 8 → exec (.decChar c) s = .next
        { s with
          dec := { acc := BitVec.ofNat 7 a, cnt := BitVec.ofNat 3 n, err := false, errch := 0 }
          rsp := { valid := true, data := 0x00000000 } }) ∧
      (8 ≤ n → exec (.decChar c) s = .next
        { s with
          dec := { acc := BitVec.ofNat 7 (a % 2 ^ (n - 8)), cnt := BitVec.ofNat 3 (n - 8), err := false, errch := 0 }
          rsp := { valid := true, data := respWord .ok 1 (packUnits [BitVec.ofNat 8 (a / 2 ^ (n - 8))]) } }))

/-- The mux table of R131, which the spec derives: a hit with DEC_ERR = 0 and DEC_ACC < 2^DEC_CNT, for each DEC_CNT, bit by
bit. -/
def Obligations.DecCharIsItsMuxTable : Prop :=
  ∀ (s : State) (c : CharCode), s.dec.Ok → s.dec.err = false → (inv c).hit = true →
    let d := s.dec.acc
    let v := (inv c).idx
    let quiet := fun (a : BitVec 7) (n : BitVec 3) => exec (.decChar c) s = .next
      { s with dec := { s.dec with acc := a, cnt := n }, rsp := { valid := true, data := 0x00000000 } }
    let emits := fun (u : Byte) (a : BitVec 7) (n : BitVec 3) => exec (.decChar c) s = .next
      { s with
        dec := { s.dec with acc := a, cnt := n }
        rsp := { valid := true, data := respWord .ok 1 (packUnits [u]) } }
    (s.dec.cnt = 0 → quiet (0#2 ++ v) 5) ∧
    (s.dec.cnt = 1 → quiet (0#1 ++ d.extractLsb' 0 1 ++ v) 6) ∧
    (s.dec.cnt = 2 → quiet (d.extractLsb' 0 2 ++ v) 7) ∧
    (s.dec.cnt = 3 → emits (d.extractLsb' 0 3 ++ v) 0 0) ∧
    (s.dec.cnt = 4 → emits (d.extractLsb' 0 4 ++ v.extractLsb' 1 4) (0#6 ++ v.extractLsb' 0 1) 1) ∧
    (s.dec.cnt = 5 → emits (d.extractLsb' 0 5 ++ v.extractLsb' 2 3) (0#5 ++ v.extractLsb' 0 2) 2) ∧
    (s.dec.cnt = 6 → emits (d.extractLsb' 0 6 ++ v.extractLsb' 3 2) (0#4 ++ v.extractLsb' 0 3) 3) ∧
    (s.dec.cnt = 7 → emits (d ++ v.extractLsb' 4 1) (0#3 ++ v.extractLsb' 0 4) 4)

/-- The model's choice where DEC_ACC ≥ 2^DEC_CNT and a hit emits no byte (93_implementation_defined.md U4; log entry 6):
DEC.CHAR completes, DEC_ACC is some value, and everything else is as R131 says. -/
def Obligations.DecCharCompletesOutsideItsInvariant : Prop :=
  ∀ (s : State) (c : CharCode), s.dec.err = false → (inv c).hit = true → s.dec.cnt.toNat ≤ 2 →
    2 ^ s.dec.cnt.toNat ≤ s.dec.acc.toNat →
    ∃ a : BitVec 7, exec (.decChar c) s = .next
      { s with
        dec := { s.dec with acc := a, cnt := BitVec.ofNat 3 (s.dec.cnt.toNat + 5) }
        rsp := { valid := true, data := 0x00000000 }
        freeCount := s.freeCount + 1 }

/-- R132: DEC.END repeats the verdict in sticky error, else reports the leftover bits in DATA[14:8] and their count in
DATA[2:0]; all four DEC registers become 0 and nothing else changes. -/
def Obligations.DecEndGivesTheVerdict : Prop :=
  decode 0x12000000 = .ok .decEnd ∧
  ∀ s : State,
    (s.dec.err = true → exec .decEnd s = .next
      { s with
        dec := { acc := 0, cnt := 0, err := false, errch := 0 }
        rsp := { valid := true, data := respWord .invalidCharacter 0 (s.dec.errch.setWidth 24) } }) ∧
    (s.dec.err = false → exec .decEnd s = .next
      { s with
        dec := { acc := 0, cnt := 0, err := false, errch := 0 }
        rsp := { valid := true, data := respWord .ok 0 (BitVec.ofNat 24 (s.dec.acc.toNat * 2 ^ 8 + s.dec.cnt.toNat)) } })

/-- R214: once in sticky error, any number of DEC.CHAR commands get ABORTED with DATA = 0 and leave every unit's
registers as they were. -/
def Obligations.StickyErrorAbortsEveryCharacter : Prop :=
  ∀ (cs : List CharCode) (s : State), s.dec.err = true →
    ∃ t : State, runCommands (cs.map (fun c => encode (.decChar c))) s = .next (cs.map (fun _ => 0x50000000), t) ∧
      t.enc = s.enc ∧ t.dec = s.dec ∧ t.val = s.val

/-- R218: a step leaves the sticky error exactly when it is a reset edge or accepts DEC.END or DEC.CLEAR; DEC is then idle,
and DEC.END repeats the verdict. -/
def Obligations.OnlyEndClearOrResetLeavesStickyError : Prop :=
  ∀ s t : State, step s = .next t → s.dec.err = true →
    (t.dec.err = false ↔
      s.nextSample.rst = true ∨
      (accepts s.nextSample s.popSample = true ∧
        (decode s.nextSample.cmdData = .ok .decEnd ∨ decode s.nextSample.cmdData = .ok .decClear))) ∧
    (t.dec.err = false → t.dec = { acc := 0, cnt := 0, err := false, errch := 0 }) ∧
    (accepts s.nextSample s.popSample = true → decode s.nextSample.cmdData = .ok .decEnd →
      t.rsp = { valid := true, data := respWord .invalidCharacter 0 (s.dec.errch.setWidth 24) })

/-! ## The validator's commands -/

/-- R162: VAL.CHAR sets VAL_SEEN for a character outside WS_SET, VAL_BAD and VAL_BADCH at the first miss, responds OK with
no data, and changes nothing else. -/
def Obligations.ValCharRecordsTheCharacter : Prop :=
  ∀ (s : State) (c : CharCode),
    decode (0x21000000 + c.setWidth 32) = .ok (.valChar c) ∧
    ∃ t : State, exec (.valChar c) s = .next t ∧
      t = { s with val := t.val, rsp := { valid := true, data := 0x00000000 } } ∧
      (isWs c = false → t.val.seen = true) ∧ (isWs c = true → t.val.seen = s.val.seen) ∧
      (s.val.bad = false → (inv c).hit = false → t.val.bad = true ∧ t.val.badch = c) ∧
      (s.val.bad = true ∨ (inv c).hit = true → t.val.bad = s.val.bad ∧ t.val.badch = s.val.badch)

/-- R163: VAL.END gives EMPTY_INPUT when nothing outside WS_SET was seen, else the first bad character, else OK; the three
VAL registers become 0 and nothing else changes. -/
def Obligations.ValEndGivesTheVerdict : Prop :=
  decode 0x22000000 = .ok .valEnd ∧
  ∀ s : State,
    let idle : ValUnit 21 := { seen := false, bad := false, badch := 0 }
    (s.val.seen = false → exec .valEnd s = .next
      { s with val := idle, rsp := { valid := true, data := 0x20000000 } }) ∧
    (s.val.seen = true → s.val.bad = true → exec .valEnd s = .next
      { s with val := idle
               rsp := { valid := true, data := respWord .invalidAlphabetCharacter 0 (s.val.badch.setWidth 24) } }) ∧
    (s.val.seen = true → s.val.bad = false → exec .valEnd s = .next
      { s with val := idle, rsp := { valid := true, data := 0x00000000 } })

/-! ## The utility commands -/

/-- R190: ALPHA.READ returns the ROM entry in every state and changes no register of a unit. -/
def Obligations.AlphaReadReturnsTheRomEntry : Prop :=
  ∀ (s : State) (i : Symbol),
    decode (0x31000000 + i.setWidth 32) = .ok (.alphaRead i) ∧
    exec (.alphaRead i) s = .next { s with rsp := { valid := true, data := respWord .ok 1 ((rom i).setWidth 24) } }

/-- R191: STATUS reports the counts and flags at their places in DATA and changes no register of a unit. -/
def Obligations.StatusReportsCountsAndFlags : Prop :=
  decode 0x32000000 = .ok .status ∧
  ∀ s : State, exec .status s = .next
    { s with
      rsp :=
        { valid := true
          data := respWord .ok 0 (BitVec.ofNat 24 (s.enc.cnt.toNat + 2 ^ 4 * s.dec.cnt.toNat + 2 ^ 7 * s.dec.err.toNat +
            2 ^ 8 * s.val.seen.toNat + 2 ^ 9 * s.val.bad.toNat)) } }

/-- The corner case of R191, which the spec derives: where the invariants hold, STATUS's DATA is 0 exactly when every unit
is idle. -/
def Obligations.StatusIsZeroExactlyWhenIdle : Prop :=
  ∀ s t : State, s.Inv → exec .status s = .next t → (rspInfo t.rsp.data = 0 ↔ s.AllIdle)

/-! ## Frames and isolation -/

/-- R42, what commands write: a command writes no other unit's registers, ALPHA.READ and STATUS write none, and no command
touches the port's waveform or the host's record; every command fills the response register. -/
def Obligations.CommandsWriteOnlyTheirUnit : Prop :=
  ∀ (i : Instr) (s : State), ∃ t : State, exec i s = .next t ∧
    (i.codecUnit ≠ .enc → t.enc = s.enc) ∧ (i.codecUnit ≠ .dec → t.dec = s.dec) ∧
    (i.codecUnit ≠ .val → t.val = s.val) ∧ t.port = s.port ∧ t.taken = s.taken ∧ t.rsp.valid = true

/-- R42, what commands read: a unit's new registers and its response depend on that unit's registers alone, where they are
as R26 to R32 say. -/
def Obligations.CommandsReadOnlyTheirUnit : Prop :=
  ∀ (i : Instr) (s1 s2 t1 t2 : State), exec i s1 = .next t1 → exec i s2 = .next t2 →
    (i.codecUnit = .enc → s1.enc.Ok → s1.enc = s2.enc → t1.enc = t2.enc ∧ t1.rsp = t2.rsp) ∧
    (i.codecUnit = .dec → s1.dec.Ok → s1.dec = s2.dec → t1.dec = t2.dec ∧ t1.rsp = t2.rsp) ∧
    (i.codecUnit = .val → s1.val = s2.val → t1.val = t2.val ∧ t1.rsp = t2.rsp)

/-- R42's last clause for whole runs (R104 and R169 rest on it): of any run of commands, a unit's responses and its
registers at the end are those of the run of that unit's commands alone. -/
def Obligations.InterleavedMessagesDoNotDisturbEachOther : Prop :=
  ∀ (is : List Instr) (s t : State) (rs : List Word), s.Inv → runCommands (is.map encode) s = .next (rs, t) →
    ∀ u : CodecUnit, u ≠ .utility →
      ∃ t1 : State,
        runCommands ((is.filter (fun i => i.codecUnit == u)).map encode) s =
          .next (((is.zip rs).filter (fun x => x.1.codecUnit == u)).map Prod.snd, t1) ∧
        (u = .enc → t1.enc = t.enc) ∧ (u = .dec → t1.dec = t.dec) ∧ (u = .val → t1.val = t.val)

/-! ## Responses and totality -/

/-- R215 (with R78's COUNT and R79's RSVD): no command, legal or not, in any state, gives a STATUS above 5, a COUNT of 3 or a
set RSVD bit, and the encoder's commands, VAL.CHAR, VAL.CLEAR, DEC.CLEAR and the utility commands only ever return OK. -/
def Obligations.ResponsesStayWithinTheirCodes : Prop :=
  ∀ (w : Word) (s t : State), runCommand w s = .next t →
    (rspStatus t.rsp.data).toNat ≤ 5 ∧ (rspCount t.rsp.data).toNat ≤ 2 ∧ rspRsvd t.rsp.data = 0 ∧
    (∀ i : Instr, decode w = .ok i →
      (i.codecUnit = .enc ∨ i.codecUnit = .utility ∨ i = .valClear ∨ i = .decClear ∨ ∃ c, i = .valChar c) →
      rspStatus t.rsp.data = 0)

/-- R83's totality: every word, in every state, has its next state and its response; and every rising edge has its next state
(R210: no trap; log entry 7). -/
def Obligations.EveryWordAndEveryEdgeAnswersNext : Prop :=
  (∀ (w : Word) (s : State), ∃ t : State, runCommand w s = .next t ∧ t.rsp.valid = true) ∧
  (∀ s : State, ∃ t : State, step s = .next t)

/-! ## The port -/

/-- R72's second case: at an edge with rst = 0, a command offered while no response waits, or while it is taken, is accepted: the
step runs the decoded command (or gives the ILLEGAL_COMMAND response) on the state with that sample used and the taken
response recorded (log entry 3). -/
def Obligations.StepRunsTheOfferedCommand : Prop :=
  ∀ (s : State) (p : PortSample) (rest : List PortSample), s.port = p :: rest → p.rst = false → p.cmdValid = true →
    (s.rsp.valid = false ∨ p.rspReady = true) →
    let s1 := { s with port := rest, taken := if s.rsp.valid then s.taken ++ [s.rsp.data] else s.taken }
    (∀ i : Instr, decode p.cmdData = .ok i → step s = exec i s1) ∧
    (∀ e : Illegal, decode p.cmdData = .error e →
      step s = .next
        { s1 with rsp := { valid := true, data := respWord .illegalCommand 0 ((p.cmdData.extractLsb' 24 8).setWidth 24) } })

/-- The word that `withFetchWord` offers is run by the very next step, whatever the response register held (log entry 9). -/
def Obligations.StepRunsTheWordPlacedForIt : Prop :=
  ∀ (s : State) (i : Instr), step (s.withFetchWord 32 (encode i).toNat) =
    exec i { s with taken := if s.rsp.valid then s.taken ++ [s.rsp.data] else s.taken }

/-- R240's reset edge: one edge with rst = 1, from any state, gives every register its reset value, accepts nothing (`cmd_ready` is 0) and
drops an untaken response; only the sample is used up. That a response taken at this very edge (R71) stays in the host's
record is the model's choice (log entry 3). -/
def Obligations.ResetEdgeClearsEveryRegister : Prop :=
  ∀ (s : State) (p : PortSample) (rest : List PortSample), s.port = p :: rest → p.rst = true →
    cmdReady p s = false ∧
    step s = .next
      { State.reset with
        port := rest
        taken := if s.rsp.valid && p.rspReady then s.taken ++ [s.rsp.data] else s.taken
        freeCount := s.freeCount }

/-- R72's last case and R246's hold: at an edge with rst = 0 that accepts no command, no unit's register changes; a taken
response leaves RSP_VALID = 0 and goes to the host's record (log entry 3), and an untaken one is held with `cmd_ready` 0. -/
def Obligations.EdgeWithoutCommandTakesOrHolds : Prop :=
  ∀ (s : State) (p : PortSample) (rest : List PortSample), s.port = p :: rest → p.rst = false →
    (p.cmdValid = false ∨ (s.rsp.valid = true ∧ p.rspReady = false)) →
    (s.rsp.valid = true → p.rspReady = true → step s = .next
      { s with port := rest, taken := s.taken ++ [s.rsp.data], rsp := { s.rsp with valid := false } }) ∧
    (s.rsp.valid = false ∨ p.rspReady = false → step s = .next { s with port := rest }) ∧
    (s.rsp.valid = true → p.rspReady = false → cmdReady p s = false)

/-- The model's choice where the list of samples has run out (log entry 2): the host drives nothing, and nothing changes. -/
def Obligations.IdleHostChangesNothing : Prop :=
  ∀ s : State, s.port = [] → step s = .next s

/-- R60, and R73's last sentence, which the spec derives: over any k edges without reset, the commands accepted are executed
one at a time in order, with exactly one response each, in the same order, and the handshake changes no value: the units end
as the transaction-level run of the accepted words leaves them, and the responses given are the earlier ones and then that
run's. The edges past the end of the list of samples are an idle host's (log entry 2), the responses given are read from the
host's record (log entry 3), and outside the invariants both runs use the same free values (log entry 4). -/
def Obligations.PortRunIsTheRunOfItsAcceptedCommands : Prop :=
  ∀ (k : Nat) (s : State), (∀ p ∈ s.port.take k, p.rst = false) →
    ∃ (t u : State) (rs : List Word),
      Host.Core.run Sys2Proof.core k s = .next t ∧ runCommands (acceptedWords k s) s = .next (rs, u) ∧
      rs.length = (acceptedWords k s).length ∧ t.responses = s.responses ++ rs ∧
      t.enc = u.enc ∧ t.dec = u.dec ∧ t.val = u.val

/-! ## Invariants -/

/-- R40: after reset every register is 0 (so the units are idle, and the invariants hold). -/
def Obligations.ResetIsIdleAndMeetsTheInvariants : Prop :=
  State.reset.AllIdle ∧ State.reset.rsp = { valid := false, data := 0 } ∧ State.reset.Inv ∧
  State.reset.enc = { acc := 0, cnt := 0 } ∧ State.reset.dec = { acc := 0, cnt := 0, err := false, errch := 0 } ∧
  State.reset.val = { seen := false, bad := false, badch := 0 }

/-- R20's last column with R26, R27, R28, R31, R32 and R35, and R77 to R79 and R215 for the response register: every step
keeps the invariants, from every state that meets them. -/
def Obligations.EveryStepKeepsTheInvariants : Prop :=
  ∀ s t : State, s.Inv → step s = .next t → t.Inv

/-- R41, which the spec derives: ENC_CNT is 8n mod 5 after n bytes from ENC_CNT = 0, and DEC_CNT is 5m mod 8 after m accepted
characters from an idle DEC. -/
def Obligations.PendingCountsFollowTheMessageLength : Prop :=
  (∀ (bs : List Byte) (s : State), s.enc.cnt = 0 →
    ∃ (rs : List Word) (t : State), runCommands (bs.map (fun b => encode (.encByte b))) s = .next (rs, t) ∧
      t.enc.cnt.toNat = 8 * bs.length % 5) ∧
  (∀ (cs : List CharCode) (s : State), s.dec = DecUnit.idle → (∀ c ∈ cs, (inv c).hit = true) →
    ∃ (rs : List Word) (t : State), runCommands (cs.map (fun c => encode (.decChar c))) s = .next (rs, t) ∧
      t.dec.cnt.toNat = 5 * cs.length % 8 ∧ t.dec.err = false)

/-! ## Messages -/

/-- The encode protocol of R104, which the spec derives: on an idle ENC it gives Base32Encode of R100 (whose accumulator is
unbounded, R43) and leaves ENC idle and the other units as they were. -/
def Obligations.EncodeProtocolGivesTheReferenceEncoding : Prop :=
  ∀ (bs : List Byte) (s : State), s.enc = EncUnit.idle →
    ∃ t : State, hostEncode bs s = .next (base32Encode b32c bs, t) ∧
      t.enc = EncUnit.idle ∧ t.dec = s.dec ∧ t.val = s.val

/-- The decode protocol of R134, which the spec derives: on an idle DEC it gives Base32Decode of R130 and leaves DEC idle and
the other units as they were. -/
def Obligations.DecodeProtocolGivesTheReferenceDecoding : Prop :=
  ∀ (cs : List CharCode) (s : State), s.dec = DecUnit.idle →
    ∃ t : State, hostDecode cs s = .next (base32Decode b32c cs, t) ∧
      t.dec = DecUnit.idle ∧ t.enc = s.enc ∧ t.val = s.val

/-- The validate protocol of R165, which the spec derives: on an idle VAL it gives Base32Validate of R160 and leaves VAL idle
and the other units as they were. -/
def Obligations.ValidateProtocolGivesTheReferenceVerdict : Prop :=
  ∀ (cs : List CharCode) (s : State), s.val = ValUnit.idle →
    ∃ t : State, hostValidate cs s = .next (base32Validate b32c cs, t) ∧
      t.val = ValUnit.idle ∧ t.enc = s.enc ∧ t.dec = s.dec

/-- R105: for n bytes the encode protocol emits ceil(8n / 5) symbols. -/
def Obligations.EncodingHasCeilEightFifthsSymbols : Prop :=
  ∀ (bs : List Byte) (s : State), s.enc = EncUnit.idle →
    ∃ (out : List Byte) (t : State), hostEncode bs s = .next (out, t) ∧ out.length = (8 * bs.length + 4) / 5

/-- R106, which the spec derives: five bytes on an idle ENC emit 1, 2, 1, 2 and 2 symbols and leave ENC idle. -/
def Obligations.FiveBytesEmitEightSymbols : Prop :=
  ∀ (s : State) (b1 b2 b3 b4 b5 : Byte), s.enc = EncUnit.idle →
    ∃ (rs : List Word) (t : State),
      runCommands ([b1, b2, b3, b4, b5].map (fun b => encode (.encByte b))) s = .next (rs, t) ∧
      rs.map (fun r => (outputUnits r).length) = [1, 2, 1, 2, 2] ∧ t.enc = EncUnit.idle

/-- R136, which the spec derives: m characters of the alphabet decode to floor(5m / 8) bytes, for all parameters. -/
def Obligations.DecodingHasFloorFiveEighthsBytes : Prop :=
  ∀ (cw : Nat) (p : CodecParams cw) (cs : List (BitVec cw)), (∀ c ∈ cs, (p.inv c).hit = true) →
    ∃ bytes : List Byte, base32Decode p cs = .ok bytes ∧ bytes.length = 5 * cs.length / 8

/-- R53's last sentence, which the spec derives: the bit string of the bytes, oldest first, is that of the encoding's 5-bit
values, but for at most 4 zero bits at the end. -/
def Obligations.EncodingKeepsTheBitString : Prop :=
  ∀ (cw : Nat) (p : CodecParams cw), p.wf = true → ∀ bs : List Byte, ∃ k : Nat, k ≤ 4 ∧
    (asChars (base32Encode p bs)).flatMap (fun c => msbBits (p.inv c).idx) =
      bs.flatMap (fun b => msbBits b) ++ List.replicate k false

/-- R138: decoding an encoding gives the bytes back, for every choice of the parameters that R7 admits. -/
def Obligations.DecodingAnEncodingGivesTheBytesBack : Prop :=
  ∀ (cw : Nat) (p : CodecParams cw), p.wf = true → ∀ bs : List Byte, base32Decode p (asChars (base32Encode p bs)) = .ok bs

/-- R138 on the block itself: encode on an idle ENC and then decode what it gave on an idle DEC. -/
def Obligations.BlockDecodesWhatItEncoded : Prop :=
  ∀ (bs : List Byte) (s : State), s.enc = EncUnit.idle → s.dec = DecUnit.idle →
    ∃ (out : List Byte) (t1 t2 : State), hostEncode bs s = .next (out, t1) ∧
      hostDecode (asChars out) t1 = .next (.ok bs, t2)

/-- R107, which the spec derives: when r = 8n mod 5 is not 0, the last symbol of an n-byte encoding has its low 5 - r bits
zero. -/
def Obligations.LastSymbolHasZeroLowBits : Prop :=
  ∀ (cw : Nat) (p : CodecParams cw) (bs : List Byte), 8 * bs.length % 5 ≠ 0 →
    ∃ i : Symbol, (base32Encode p bs).getLast? = some (p.rom i) ∧ i.toNat % 2 ^ (5 - 8 * bs.length % 5) = 0

/-- R139: a decode message reports its first absent character, from left to right, and no later character changes any
register of a unit. -/
def Obligations.DecodeReportsTheFirstAbsentCharacter : Prop :=
  ∀ (before after : List CharCode) (c : CharCode) (s : State), s.dec = DecUnit.idle →
    (∀ x ∈ before, (inv x).hit = true) → (inv c).hit = false →
    (∃ t : State, hostDecode (before ++ c :: after) s = .next (.invalidCharacter c, t) ∧ t.dec = DecUnit.idle) ∧
    (∃ (rs1 rs2 : List Word) (t1 t2 : State),
      runCommands ((before ++ [c]).map (fun x => encode (.decChar x))) s = .next (rs1, t1) ∧
      runCommands (after.map (fun x => encode (.decChar x))) t1 = .next (rs2, t2) ∧
      t2.enc = t1.enc ∧ t2.dec = t1.dec ∧ t2.val = t1.val)

/-- R167, which the spec derives, for every choice of the parameters that R7 admits: the validator's verdict and the
decoder's result agree. -/
def Obligations.ValidatorAgreesWithTheDecoder : Prop :=
  ∀ (cw : Nat) (p : CodecParams cw), p.wf = true → ∀ cs : List (BitVec cw),
    (base32Validate p cs = .valid → ∃ bytes, base32Decode p cs = .ok bytes) ∧
    (∀ c, base32Validate p cs = .invalidAlphabetCharacter c → base32Decode p cs = .invalidCharacter c) ∧
    (base32Validate p cs = .emptyInput →
      (cs = [] → base32Decode p cs = .ok []) ∧
      (∀ c rest, cs = c :: rest → (∀ x ∈ cs, p.isWs x = true) ∧ base32Decode p cs = .invalidCharacter c))

/-! ## The parameters -/

/-- R7's B32C column: the machine is the block that takes the parameters, at CHAR_W = 21, B32C's ALPHABET and B32C's WS_SET,
for every word and at every edge (00_scope.md section 4). -/
def Obligations.MachineIsTheB32CInstance : Prop :=
  (∀ (w : Word) (s : State), runCommand w s = Codec.runCommand b32c w s) ∧
  (∀ s : State, step s = Codec.step b32c s)

/-- R75's sentence on other CHAR_W, with R162 and R131's miss: for every CHAR_W, ALPHABET and WS_SET, a CHAR operand with a bit
at or above CHAR_W is illegal; otherwise VAL.CHAR records the character by that WS_SET and that alphabet, and DEC.CHAR enters
the sticky error on a miss of that alphabet. -/
def Obligations.CharacterCommandsOfAnyParameters : Prop :=
  ∀ (cw : Nat) (p : CodecParams cw) (s : Codec.State cw) (x : BitVec 24),
    (2 ^ cw ≤ x.toNat →
      Codec.runCommand p (commandWord .decChar x) s = .next { s with rsp := { valid := true, data := 0x40000011 } } ∧
      Codec.runCommand p (commandWord .valChar x) s = .next { s with rsp := { valid := true, data := 0x40000021 } }) ∧
    (x.toNat < 2 ^ cw →
      let c : BitVec cw := x.setWidth cw
      (s.dec.err = false → (p.inv c).hit = false →
        Codec.runCommand p (commandWord .decChar x) s = .next
          { s with
            dec := { acc := 0, cnt := 0, err := true, errch := c }
            rsp := { valid := true, data := respWord .invalidCharacter 0 x } }) ∧
      Codec.runCommand p (commandWord .valChar x) s = .next
        { s with
          val :=
            { seen := s.val.seen || !p.isWs c
              bad := s.val.bad || !(p.inv c).hit
              badch := if s.val.bad || (p.inv c).hit then s.val.badch else c }
          rsp := { valid := true, data := 0x00000000 } })

/-- For every choice of CHAR_W, ALPHABET and WS_SET that R7 and R161 admit, every edge keeps the invariants. -/
def Obligations.EveryStepOfAnyParametersKeepsTheInvariants : Prop :=
  ∀ (cw : Nat) (p : CodecParams cw), p.wf = true → ∀ s t : Codec.State cw, s.Inv → Codec.step p s = .next t → t.Inv

/-- For every choice of CHAR_W, ALPHABET and WS_SET that R7 and R161 admit, the three protocols of R104, R134 and R165, which
the spec derives, give the reference functions of R100, R130 and R160 over that choice, and leave their unit idle and the
other units as they were. -/
def Obligations.MessagesOfAnyParametersGiveTheReferenceResults : Prop :=
  ∀ (cw : Nat) (p : CodecParams cw), p.wf = true →
    (∀ (bs : List Byte) (s : Codec.State cw), s.enc = EncUnit.idle →
      ∃ t : Codec.State cw, Codec.hostEncode p bs s = .next (base32Encode p bs, t) ∧
        t.enc = EncUnit.idle ∧ t.dec = s.dec ∧ t.val = s.val) ∧
    (∀ (cs : List (BitVec cw)) (s : Codec.State cw), s.dec = DecUnit.idle →
      ∃ t : Codec.State cw, Codec.hostDecode p cs s = .next (base32Decode p cs, t) ∧
        t.dec = DecUnit.idle ∧ t.enc = s.enc ∧ t.val = s.val) ∧
    (∀ (cs : List (BitVec cw)) (s : Codec.State cw), s.val = ValUnit.idle →
      ∃ t : Codec.State cw, Codec.hostValidate p cs s = .next (base32Validate p cs, t) ∧
        t.val = ValUnit.idle ∧ t.enc = s.enc ∧ t.dec = s.dec)
end

