-- ==== Sys2Proof/Laws/Decode.lean ====
section
/-! SUPPORT. The fields of an encoded command (spec 30_encoding.md R74, R75). -/

namespace Sys2Proof

/-- A command word as a number (R74). -/
theorem toNat_commandWord (o : Opcode) (x : BitVec 24) : (commandWord o x).toNat = o.code.toNat * 2 ^ 24 + x.toNat := by
  rw [commandWord, BitVec.toNat_append, ← Nat.shiftLeft_add_eq_or_of_lt x.isLt, Nat.shiftLeft_eq]

/-- OPC of a command word (R74). -/
@[simp] theorem opcField_commandWord (o : Opcode) (x : BitVec 24) : opcField (commandWord o x) = o.code := by
  apply BitVec.eq_of_toNat_eq
  have hx := x.isLt
  have hc := o.code.isLt
  simp only [opcField, BitVec.extractLsb'_toNat, toNat_commandWord, Nat.shiftRight_eq_div_pow]
  omega

/-- OPERAND of a command word (R74). -/
@[simp] theorem operandField_commandWord (o : Opcode) (x : BitVec 24) : operandField (commandWord o x) = x := by
  apply BitVec.eq_of_toNat_eq
  have hx := x.isLt
  simp only [operandField, BitVec.extractLsb'_toNat, toNat_commandWord, Nat.shiftRight_eq_div_pow]
  omega

/-- OPC of an encoded command. -/
@[simp] theorem opcField_encode (i : Instr) : opcField (encode i) = i.opcode.code :=
  opcField_commandWord _ _

/-- OPERAND of an encoded command. -/
@[simp] theorem operandField_encode (i : Instr) : operandField (encode i) = i.operand :=
  operandField_commandWord _ _

/-- An opcode is found by its code (R80). -/
@[simp] theorem Opcode.ofCode?_code (o : Opcode) : Opcode.ofCode? o.code = some o := by
  cases o <;> decide

/-- A found opcode has the code (R80). -/
theorem Opcode.code_of_ofCode? {b : BitVec 8} {o : Opcode} (h : Opcode.ofCode? b = some o) : o.code = b := by
  simpa using List.find?_some h

/-- No opcode has an unassigned code (R81). -/
theorem Opcode.code_ne_of_ofCode?_none {b : BitVec 8} (h : Opcode.ofCode? b = none) (o : Opcode) : o.code ≠ b := by
  intro e
  simp [← e] at h

/-- A form's reserved bits are 0 exactly when OPERAND lies below 2^FIELD_W, for every CHAR_W (R75). -/
theorem operandFitsOf_iff (cw : Nat) (f : OperandForm) (x : BitVec 24) :
    operandFitsOf cw f x = true ↔ x.toNat < 2 ^ f.fieldWidthOf cw := by
  have e : (x >>> f.fieldWidthOf cw == 0#24) = true ↔ x.toNat / 2 ^ f.fieldWidthOf cw = 0 := by
    rw [beq_iff_eq, ← BitVec.toNat_inj, BitVec.toNat_ushiftRight, Nat.shiftRight_eq_div_pow]
    rfl
  rw [operandFitsOf, e, Nat.div_eq_zero_iff]
  simp

/-- The same at B32C's CHAR_W. -/
theorem operandFits_iff (f : OperandForm) (x : BitVec 24) : operandFits f x = true ↔ x.toNat < 2 ^ f.fieldWidth :=
  operandFitsOf_iff 21 f x

end Sys2Proof
end

