-- ==== Sys2Proof/Laws/Response.lean ====
section
/-! SUPPORT. The fields of a response word, and the output units it carries (R77, R78). -/

namespace Sys2Proof.Machine

/-- An append as a number. -/
theorem toNat_append_eq_add {m k : Nat} (x : BitVec m) (y : BitVec k) :
    (x ++ y).toNat = x.toNat * 2 ^ k + y.toNat := by
  rw [BitVec.toNat_append, ← Nat.shiftLeft_add_eq_or_of_lt y.isLt, Nat.shiftLeft_eq]

/-- The response word as a number (R77). -/
theorem toNat_respWord (st : RspStatus) (n : BitVec 2) (d : BitVec 24) :
    (respWord st n d).toNat = st.code.toNat * 2 ^ 28 + n.toNat * 2 ^ 26 + d.toNat := by
  have h : (respWord st n d).toNat = (((st.code ++ n) ++ 0#2) ++ d).toNat := rfl
  rw [h, toNat_append_eq_add, toNat_append_eq_add, toNat_append_eq_add]
  simp only [BitVec.toNat_zero]
  ring

@[simp] theorem rspStatus_respWord (st : RspStatus) (n : BitVec 2) (d : BitVec 24) :
    rspStatus (respWord st n d) = st.code := by
  apply BitVec.eq_of_toNat_eq
  have hd := d.isLt
  have hn := n.isLt
  have hs := st.code.isLt
  simp only [rspStatus, BitVec.extractLsb'_toNat, toNat_respWord, Nat.shiftRight_eq_div_pow]
  omega

@[simp] theorem rspCount_respWord (st : RspStatus) (n : BitVec 2) (d : BitVec 24) :
    rspCount (respWord st n d) = n := by
  apply BitVec.eq_of_toNat_eq
  have hd := d.isLt
  have hn := n.isLt
  simp only [rspCount, BitVec.extractLsb'_toNat, toNat_respWord, Nat.shiftRight_eq_div_pow]
  omega

@[simp] theorem rspRsvd_respWord (st : RspStatus) (n : BitVec 2) (d : BitVec 24) :
    rspRsvd (respWord st n d) = 0#2 := by
  apply BitVec.eq_of_toNat_eq
  have hd := d.isLt
  simp only [rspRsvd, BitVec.extractLsb'_toNat, toNat_respWord, Nat.shiftRight_eq_div_pow, BitVec.toNat_zero]
  omega

@[simp] theorem rspInfo_respWord (st : RspStatus) (n : BitVec 2) (d : BitVec 24) :
    rspInfo (respWord st n d) = d := by
  apply BitVec.eq_of_toNat_eq
  have hd := d.isLt
  simp only [rspInfo, BitVec.extractLsb'_toNat, toNat_respWord, Nat.shiftRight_eq_div_pow]
  omega

/-- A character code comes back from DATA, where CHAR_W is at most DATA's width (R211). -/
theorem rspChar_respWord {cw : Nat} (h : cw ≤ 24) (st : RspStatus) (n : BitVec 2) (c : BitVec cw) :
    rspChar (respWord st n (c.setWidth 24)) = c := by
  apply BitVec.eq_of_toNat_eq
  have hc := c.isLt
  have hp : 2 ^ cw ≤ 2 ^ 24 := Nat.pow_le_pow_right (by decide) h
  have e24 : c.toNat % 2 ^ 24 = c.toNat := Nat.mod_eq_of_lt (by omega)
  have e : st.code.toNat * 2 ^ 28 + n.toNat * 2 ^ 26 = 2 ^ cw * (2 ^ (24 - cw) * (st.code.toNat * 2 ^ 4 + n.toNat * 2 ^ 2)) := by
    rw [← Nat.mul_assoc, ← Nat.pow_add, show cw + (24 - cw) = 24 by omega]
    ring
  simp only [rspChar, BitVec.extractLsb'_toNat, toNat_respWord, Nat.shiftRight_eq_div_pow, BitVec.toNat_setWidth, e24,
    pow_zero, Nat.div_one, e, Nat.mul_add_mod, Nat.mod_eq_of_lt hc]

/-- The same at B32C's CHAR_W. -/
@[simp] theorem rspChar_respWord_b32c (st : RspStatus) (n : BitVec 2) (c : BitVec 21) :
    rspChar (respWord st n (c.setWidth 24)) = c :=
  rspChar_respWord (by decide) st n c

/-- A status code names its status. -/
theorem RspStatus.code_inj {a b : RspStatus} : a.code = b.code ↔ a = b := by
  cases a <;> cases b <;> decide

/-- Only an OK response carries output units. -/
@[simp] theorem outputUnits_of_ne_ok {st : RspStatus} (h : st ≠ .ok) (n : BitVec 2) (d : BitVec 24) :
    outputUnits (respWord st n d) = [] := by
  have hc : st.code ≠ RspStatus.ok.code := fun e => h (RspStatus.code_inj.mp e)
  simp [outputUnits, hc]

/-- An information word carries no output unit. -/
@[simp] theorem outputUnits_info (d : BitVec 24) : outputUnits (respWord .ok 0#2 d) = [] := by
  simp [outputUnits]

/-- DATA of one unit as a number. -/
theorem toNat_packUnits_one (u : Byte) : (packUnits [u]).toNat = u.toNat := by
  have hu := u.isLt
  simp only [packUnits, BitVec.toNat_setWidth]
  omega

/-- DATA of two units as a number: the first in DATA[7:0] (R78). -/
theorem toNat_packUnits_two (u v : Byte) : (packUnits [u, v]).toNat = v.toNat * 2 ^ 8 + u.toNat := by
  have hu := u.isLt
  have hv := v.isLt
  have h : (packUnits [u, v]).toNat = (v ++ u).toNat % 2 ^ 24 := BitVec.toNat_setWidth ..
  rw [h, toNat_append_eq_add]
  omega

/-- One unit comes back as it was packed. -/
@[simp] theorem outputUnits_one (u : Byte) : outputUnits (respWord .ok 1#2 (packUnits [u])) = [u] := by
  have hu := u.isLt
  have h : (respWord .ok 1#2 (packUnits [u])).extractLsb' 0 8 = u := by
    apply BitVec.eq_of_toNat_eq
    simp only [BitVec.extractLsb'_toNat, toNat_respWord, Nat.shiftRight_eq_div_pow, toNat_packUnits_one]
    omega
  simp [outputUnits, h]

/-- Two units come back as they were packed, in order. -/
@[simp] theorem outputUnits_two (u v : Byte) : outputUnits (respWord .ok 2#2 (packUnits [u, v])) = [u, v] := by
  have hu := u.isLt
  have hv := v.isLt
  have h0 : (respWord .ok 2#2 (packUnits [u, v])).extractLsb' 0 8 = u := by
    apply BitVec.eq_of_toNat_eq
    simp only [BitVec.extractLsb'_toNat, toNat_respWord, Nat.shiftRight_eq_div_pow, toNat_packUnits_two]
    omega
  have h1 : (respWord .ok 2#2 (packUnits [u, v])).extractLsb' 8 8 = v := by
    apply BitVec.eq_of_toNat_eq
    simp only [BitVec.extractLsb'_toNat, toNat_respWord, Nat.shiftRight_eq_div_pow, toNat_packUnits_two]
    omega
  simp [outputUnits, h0, h1]

end Sys2Proof.Machine
end

