-- ==== Sys2Proof/Laws/State.lean ====
section
/-! SUPPORT. One lemma per field per update of State, so that no proof unfolds a record update. -/

namespace Sys2Proof.Codec

open Sys2Proof.Machine

variable {cw : Nat}

@[simp] theorem State.setEnc_enc (s : State cw) (e : EncUnit) : (s.setEnc e).enc = e := rfl
@[simp] theorem State.setEnc_dec (s : State cw) (e : EncUnit) : (s.setEnc e).dec = s.dec := rfl
@[simp] theorem State.setEnc_val (s : State cw) (e : EncUnit) : (s.setEnc e).val = s.val := rfl
@[simp] theorem State.setEnc_rsp (s : State cw) (e : EncUnit) : (s.setEnc e).rsp = s.rsp := rfl
@[simp] theorem State.setEnc_port (s : State cw) (e : EncUnit) : (s.setEnc e).port = s.port := rfl
@[simp] theorem State.setEnc_taken (s : State cw) (e : EncUnit) : (s.setEnc e).taken = s.taken := rfl
@[simp] theorem State.setEnc_freeCount (s : State cw) (e : EncUnit) : (s.setEnc e).freeCount = s.freeCount := rfl

@[simp] theorem State.setDec_enc (s : State cw) (d : DecUnit cw) : (s.setDec d).enc = s.enc := rfl
@[simp] theorem State.setDec_dec (s : State cw) (d : DecUnit cw) : (s.setDec d).dec = d := rfl
@[simp] theorem State.setDec_val (s : State cw) (d : DecUnit cw) : (s.setDec d).val = s.val := rfl
@[simp] theorem State.setDec_rsp (s : State cw) (d : DecUnit cw) : (s.setDec d).rsp = s.rsp := rfl
@[simp] theorem State.setDec_port (s : State cw) (d : DecUnit cw) : (s.setDec d).port = s.port := rfl
@[simp] theorem State.setDec_taken (s : State cw) (d : DecUnit cw) : (s.setDec d).taken = s.taken := rfl
@[simp] theorem State.setDec_freeCount (s : State cw) (d : DecUnit cw) : (s.setDec d).freeCount = s.freeCount := rfl

@[simp] theorem State.setVal_enc (s : State cw) (v : ValUnit cw) : (s.setVal v).enc = s.enc := rfl
@[simp] theorem State.setVal_dec (s : State cw) (v : ValUnit cw) : (s.setVal v).dec = s.dec := rfl
@[simp] theorem State.setVal_val (s : State cw) (v : ValUnit cw) : (s.setVal v).val = v := rfl
@[simp] theorem State.setVal_rsp (s : State cw) (v : ValUnit cw) : (s.setVal v).rsp = s.rsp := rfl
@[simp] theorem State.setVal_port (s : State cw) (v : ValUnit cw) : (s.setVal v).port = s.port := rfl
@[simp] theorem State.setVal_taken (s : State cw) (v : ValUnit cw) : (s.setVal v).taken = s.taken := rfl
@[simp] theorem State.setVal_freeCount (s : State cw) (v : ValUnit cw) : (s.setVal v).freeCount = s.freeCount := rfl

@[simp] theorem State.respond_enc (s : State cw) (st : RspStatus) (n : BitVec 2) (d : BitVec 24) :
    (s.respond st n d).enc =
      s.enc := rfl
@[simp] theorem State.respond_dec (s : State cw) (st : RspStatus) (n : BitVec 2) (d : BitVec 24) :
    (s.respond st n d).dec =
      s.dec := rfl
@[simp] theorem State.respond_val (s : State cw) (st : RspStatus) (n : BitVec 2) (d : BitVec 24) :
    (s.respond st n d).val =
      s.val := rfl
@[simp] theorem State.respond_rsp (s : State cw) (st : RspStatus) (n : BitVec 2) (d : BitVec 24) :
    (s.respond st n d).rsp =
      { valid := true, data := respWord st n d } := rfl
@[simp] theorem State.respond_port (s : State cw) (st : RspStatus) (n : BitVec 2) (d : BitVec 24) :
    (s.respond st n d).port =
      s.port := rfl
@[simp] theorem State.respond_taken (s : State cw) (st : RspStatus) (n : BitVec 2) (d : BitVec 24) :
    (s.respond st n d).taken =
      s.taken := rfl
@[simp] theorem State.respond_freeCount (s : State cw) (st : RspStatus) (n : BitVec 2) (d : BitVec 24) :
    (s.respond st n d).freeCount =
      s.freeCount := rfl

@[simp] theorem State.respondUnits_enc (s : State cw) (us : List Byte) : (s.respondUnits us).enc = s.enc := rfl
@[simp] theorem State.respondUnits_dec (s : State cw) (us : List Byte) : (s.respondUnits us).dec = s.dec := rfl
@[simp] theorem State.respondUnits_val (s : State cw) (us : List Byte) : (s.respondUnits us).val = s.val := rfl
@[simp] theorem State.respondUnits_rsp (s : State cw) (us : List Byte) :
    (s.respondUnits us).rsp =
      { valid := true, data := respWord .ok (BitVec.ofNat 2 us.length) (packUnits us) } := rfl
@[simp] theorem State.respondUnits_port (s : State cw) (us : List Byte) : (s.respondUnits us).port = s.port := rfl
@[simp] theorem State.respondUnits_taken (s : State cw) (us : List Byte) : (s.respondUnits us).taken = s.taken := rfl
@[simp] theorem State.respondUnits_freeCount (s : State cw) (us : List Byte) :
    (s.respondUnits us).freeCount =
      s.freeCount := rfl

@[simp] theorem State.drawFree_enc (s : State cw) : (s.drawFree).enc = s.enc := rfl
@[simp] theorem State.drawFree_dec (s : State cw) : (s.drawFree).dec = s.dec := rfl
@[simp] theorem State.drawFree_val (s : State cw) : (s.drawFree).val = s.val := rfl
@[simp] theorem State.drawFree_rsp (s : State cw) : (s.drawFree).rsp = s.rsp := rfl
@[simp] theorem State.drawFree_port (s : State cw) : (s.drawFree).port = s.port := rfl
@[simp] theorem State.drawFree_taken (s : State cw) : (s.drawFree).taken = s.taken := rfl
@[simp] theorem State.drawFree_freeCount (s : State cw) : (s.drawFree).freeCount = s.freeCount + 1 := rfl

@[simp] theorem State.leaveDec_enc (s : State cw) : (s.leaveDec).enc = s.enc := rfl
@[simp] theorem State.leaveDec_dec (s : State cw) : (s.leaveDec).dec = DecUnit.idle := rfl
@[simp] theorem State.leaveDec_val (s : State cw) : (s.leaveDec).val = s.val := rfl
@[simp] theorem State.leaveDec_rsp (s : State cw) : (s.leaveDec).rsp = s.rsp := rfl
@[simp] theorem State.leaveDec_port (s : State cw) : (s.leaveDec).port = s.port := rfl
@[simp] theorem State.leaveDec_taken (s : State cw) : (s.leaveDec).taken = s.taken := rfl
@[simp] theorem State.leaveDec_freeCount (s : State cw) : (s.leaveDec).freeCount = s.freeCount := rfl

@[simp] theorem State.enterDecError_enc (s : State cw) (c : BitVec cw) : (s.enterDecError c).enc = s.enc := rfl
@[simp] theorem State.enterDecError_dec (s : State cw) (c : BitVec cw) :
    (s.enterDecError c).dec =
      { acc := 0, cnt := 0, err := true, errch := c } := rfl
@[simp] theorem State.enterDecError_val (s : State cw) (c : BitVec cw) : (s.enterDecError c).val = s.val := rfl
@[simp] theorem State.enterDecError_rsp (s : State cw) (c : BitVec cw) :
    (s.enterDecError c).rsp =
      { valid := true, data := respWord .invalidCharacter 0 (c.setWidth 24) } := rfl
@[simp] theorem State.enterDecError_port (s : State cw) (c : BitVec cw) : (s.enterDecError c).port = s.port := rfl
@[simp] theorem State.enterDecError_taken (s : State cw) (c : BitVec cw) : (s.enterDecError c).taken = s.taken := rfl
@[simp] theorem State.enterDecError_freeCount (s : State cw) (c : BitVec cw) :
    (s.enterDecError c).freeCount =
      s.freeCount := rfl

@[simp] theorem State.respondIllegal_enc (s : State cw) (opc : BitVec 8) : (s.respondIllegal opc).enc = s.enc := rfl
@[simp] theorem State.respondIllegal_dec (s : State cw) (opc : BitVec 8) : (s.respondIllegal opc).dec = s.dec := rfl
@[simp] theorem State.respondIllegal_val (s : State cw) (opc : BitVec 8) : (s.respondIllegal opc).val = s.val := rfl
@[simp] theorem State.respondIllegal_rsp (s : State cw) (opc : BitVec 8) :
    (s.respondIllegal opc).rsp =
      { valid := true, data := respWord .illegalCommand 0 (opc.setWidth 24) } := rfl
@[simp] theorem State.respondIllegal_port (s : State cw) (opc : BitVec 8) : (s.respondIllegal opc).port = s.port := rfl
@[simp] theorem State.respondIllegal_taken (s : State cw) (opc : BitVec 8) :
    (s.respondIllegal opc).taken =
      s.taken := rfl
@[simp] theorem State.respondIllegal_freeCount (s : State cw) (opc : BitVec 8) :
    (s.respondIllegal opc).freeCount =
      s.freeCount := rfl

@[simp] theorem State.emitSymbols_enc (p : CodecParams cw) (s : State cw) (r : EncStep) : (s.emitSymbols p r).enc = r.unit := rfl
@[simp] theorem State.emitSymbols_dec (p : CodecParams cw) (s : State cw) (r : EncStep) : (s.emitSymbols p r).dec = s.dec := rfl
@[simp] theorem State.emitSymbols_val (p : CodecParams cw) (s : State cw) (r : EncStep) : (s.emitSymbols p r).val = s.val := rfl
@[simp] theorem State.emitSymbols_rsp (p : CodecParams cw) (s : State cw) (r : EncStep) :
    (s.emitSymbols p r).rsp =
      { valid := true
        data := respWord .ok (BitVec.ofNat 2 (p.rom r.first :: (r.second.map p.rom).toList).length)
          (packUnits (p.rom r.first :: (r.second.map p.rom).toList)) } := rfl
@[simp] theorem State.emitSymbols_port (p : CodecParams cw) (s : State cw) (r : EncStep) : (s.emitSymbols p r).port = s.port := rfl
@[simp] theorem State.emitSymbols_taken (p : CodecParams cw) (s : State cw) (r : EncStep) : (s.emitSymbols p r).taken = s.taken := rfl
@[simp] theorem State.emitSymbols_freeCount (p : CodecParams cw) (s : State cw) (r : EncStep) :
    (s.emitSymbols p r).freeCount =
      s.freeCount := rfl

@[simp] theorem State.recordTaken_enc (s : State cw) (p : PortSample) : (s.recordTaken p).enc = s.enc := rfl
@[simp] theorem State.recordTaken_dec (s : State cw) (p : PortSample) : (s.recordTaken p).dec = s.dec := rfl
@[simp] theorem State.recordTaken_val (s : State cw) (p : PortSample) : (s.recordTaken p).val = s.val := rfl
@[simp] theorem State.recordTaken_rsp (s : State cw) (p : PortSample) : (s.recordTaken p).rsp = s.rsp := rfl
@[simp] theorem State.recordTaken_port (s : State cw) (p : PortSample) : (s.recordTaken p).port = s.port := rfl
@[simp] theorem State.recordTaken_taken (s : State cw) (p : PortSample) :
    (s.recordTaken p).taken =
      if takes p s then s.taken ++ [s.rsp.data] else s.taken := rfl
@[simp] theorem State.recordTaken_freeCount (s : State cw) (p : PortSample) :
    (s.recordTaken p).freeCount =
      s.freeCount := rfl

@[simp] theorem State.resetRegisters_enc (s : State cw) : (s.resetRegisters).enc = EncUnit.idle := rfl
@[simp] theorem State.resetRegisters_dec (s : State cw) : (s.resetRegisters).dec = DecUnit.idle := rfl
@[simp] theorem State.resetRegisters_val (s : State cw) : (s.resetRegisters).val = ValUnit.idle := rfl
@[simp] theorem State.resetRegisters_rsp (s : State cw) : (s.resetRegisters).rsp = RspReg.empty := rfl
@[simp] theorem State.resetRegisters_port (s : State cw) : (s.resetRegisters).port = s.port := rfl
@[simp] theorem State.resetRegisters_taken (s : State cw) : (s.resetRegisters).taken = s.taken := rfl
@[simp] theorem State.resetRegisters_freeCount (s : State cw) : (s.resetRegisters).freeCount = s.freeCount := rfl

@[simp] theorem State.dropResponse_enc (s : State cw) : (s.dropResponse).enc = s.enc := rfl
@[simp] theorem State.dropResponse_dec (s : State cw) : (s.dropResponse).dec = s.dec := rfl
@[simp] theorem State.dropResponse_val (s : State cw) : (s.dropResponse).val = s.val := rfl
@[simp] theorem State.dropResponse_rsp (s : State cw) :
    (s.dropResponse).rsp =
      { valid := false, data := s.rsp.data } := rfl
@[simp] theorem State.dropResponse_port (s : State cw) : (s.dropResponse).port = s.port := rfl
@[simp] theorem State.dropResponse_taken (s : State cw) : (s.dropResponse).taken = s.taken := rfl
@[simp] theorem State.dropResponse_freeCount (s : State cw) : (s.dropResponse).freeCount = s.freeCount := rfl

@[simp] theorem State.popSample_enc (s : State cw) : (s.popSample).enc = s.enc := rfl
@[simp] theorem State.popSample_dec (s : State cw) : (s.popSample).dec = s.dec := rfl
@[simp] theorem State.popSample_val (s : State cw) : (s.popSample).val = s.val := rfl
@[simp] theorem State.popSample_rsp (s : State cw) : (s.popSample).rsp = s.rsp := rfl
@[simp] theorem State.popSample_port (s : State cw) : (s.popSample).port = s.port.tail := rfl
@[simp] theorem State.popSample_taken (s : State cw) : (s.popSample).taken = s.taken := rfl
@[simp] theorem State.popSample_freeCount (s : State cw) : (s.popSample).freeCount = s.freeCount := rfl

@[simp] theorem State.offer_enc (s : State cw) (w : Word) : (s.offer w).enc = s.enc := rfl
@[simp] theorem State.offer_dec (s : State cw) (w : Word) : (s.offer w).dec = s.dec := rfl
@[simp] theorem State.offer_val (s : State cw) (w : Word) : (s.offer w).val = s.val := rfl
@[simp] theorem State.offer_rsp (s : State cw) (w : Word) : (s.offer w).rsp = s.rsp := rfl
@[simp] theorem State.offer_port (s : State cw) (w : Word) : (s.offer w).port = offerSample w :: s.port := rfl
@[simp] theorem State.offer_taken (s : State cw) (w : Word) : (s.offer w).taken = s.taken := rfl
@[simp] theorem State.offer_freeCount (s : State cw) (w : Word) : (s.offer w).freeCount = s.freeCount := rfl

end Sys2Proof.Codec
end

