-- ==== Sys2Proof/Laws/Ops.lean ====
section
/-! SUPPORT. The shared operations as numbers: the bit-buffers, their windows and their masks (spec 10_state.md R43,
40_encoder.md R101, 41_decoder.md R131). -/

namespace Sys2Proof.Machine

/-- A BitBuffer with w new bits behind its old ones. -/
theorem toNat_pushBits {m w : Nat} (x : BitVec m) (y : BitVec w) (h : m + w ≤ 12) :
    ((x.setWidth 12 <<< w) ||| y.setWidth 12).toNat = x.toNat * 2 ^ w + y.toNat := by
  have hx := x.isLt
  have hy := y.isLt
  have hxw : x.toNat * 2 ^ w + y.toNat < 2 ^ 12 := by
    calc x.toNat * 2 ^ w + y.toNat < x.toNat * 2 ^ w + 2 ^ w := by omega
      _ = (x.toNat + 1) * 2 ^ w := by ring
      _ ≤ 2 ^ m * 2 ^ w := Nat.mul_le_mul_right _ hx
      _ = 2 ^ (m + w) := (Nat.pow_add ..).symm
      _ ≤ 2 ^ 12 := Nat.pow_le_pow_right (by decide) h
  have hx12 : x.toNat % 2 ^ 12 = x.toNat := Nat.mod_eq_of_lt
    (lt_of_lt_of_le hx (Nat.pow_le_pow_right (by decide) (by omega)))
  have hy12 : y.toNat % 2 ^ 12 = y.toNat := Nat.mod_eq_of_lt
    (lt_of_lt_of_le hy (Nat.pow_le_pow_right (by decide) (by omega)))
  simp only [BitVec.toNat_or, BitVec.toNat_shiftLeft, BitVec.toNat_setWidth, hx12, hy12]
  rw [Nat.mod_eq_of_lt (by rw [Nat.shiftLeft_eq]; omega), ← Nat.shiftLeft_add_eq_or_of_lt hy, Nat.shiftLeft_eq]

/-- The window a[n-1 : n-k] as a number. -/
theorem toNat_window (k : Nat) (a : BitVec 12) (n : Nat) :
    (window k a n).toNat = a.toNat / 2 ^ (n - k) % 2 ^ k := by
  simp only [window, BitVec.toNat_setWidth, BitVec.toNat_ushiftRight, Nat.shiftRight_eq_div_pow]

/-- The n low bits as a number. -/
theorem toNat_lowBits (a : BitVec 12) (n : Nat) (h : n ≤ 12) : (lowBits a n).toNat = a.toNat % 2 ^ n := by
  have hn : 2 ^ n - 1 < 2 ^ 12 := by
    have := Nat.pow_le_pow_right (n := 2) (by decide) h
    have := Nat.two_pow_pos n
    omega
  simp only [lowBits, BitVec.toNat_and, BitVec.toNat_ofNat, Nat.mod_eq_of_lt hn, Nat.and_two_pow_sub_one_eq_mod]

end Sys2Proof.Machine
end

