-- ==== Sys2Proof/Laws/Decoder.lean ====
section
/-! SUPPORT. DEC.CHAR's cases (R131, R216) and its fold as numbers: `acc * 2^5 + v` is the BitBuffer with the character's
5-bit value behind it (spec 41_decoder.md R131). -/

namespace Sys2Proof.Codec

open Sys2Proof.Machine

variable {cw : Nat}

/-- Sticky error: ABORTED (R131, R214). -/
theorem decChar_aborted (p : CodecParams cw) {s : State cw} (c : BitVec cw) (h : s.dec.err = true) :
    decChar p c s = .next (s.respond .aborted 0 0) := by
  simp [decChar, classifyChar, h]

/-- A miss: entry into the sticky error (R131, R217). -/
theorem decChar_miss {p : CodecParams cw} {s : State cw} {c : BitVec cw} (h : s.dec.err = false)
    (hc : (p.inv c).hit = false) : decChar p c s = .next (s.enterDecError c) := by
  simp [decChar, classifyChar, h, hc]

/-- A hit: the fold (R131). -/
theorem decChar_hit {p : CodecParams cw} {s : State cw} {c : BitVec cw} (h : s.dec.err = false)
    (hc : (p.inv c).hit = true) : decChar p c s = .next (s.foldSymbol (p.inv c).idx) := by
  simp [decChar, classifyChar, h, hc]

/-- No byte: fewer than 8 bits are pending after the character (R131). -/
theorem foldSymbol_quiet {s : State cw} (v : Symbol) (hn : s.dec.cnt.toNat < 3)
    (ha : s.dec.acc.toNat < 2 ^ s.dec.cnt.toNat) :
    s.foldSymbol v =
      (s.setDec { s.dec with
        acc := BitVec.ofNat 7 (s.dec.acc.toNat * 2 ^ 5 + v.toNat)
        cnt := BitVec.ofNat 3 (s.dec.cnt.toNat + 5) }).respondUnits [] := by
  have hA := toNat_pushBits s.dec.acc v (by decide : 7 + 5 ≤ 12)
  have h8 : ¬ 8 ≤ s.dec.cnt.toNat + 5 := by omega
  have e : ((s.dec.acc.setWidth 12 <<< 5) ||| v.setWidth 12).setWidth 7 =
      BitVec.ofNat 7 (s.dec.acc.toNat * 2 ^ 5 + v.toNat) := by
    apply BitVec.eq_of_toNat_eq
    rw [BitVec.toNat_setWidth, hA, BitVec.toNat_ofNat]
  simp only [State.foldSymbol, h8, ha, if_false, if_true, e]

/-- A byte: 8 to 12 bits are pending after the character (R131). -/
theorem foldSymbol_emits {s : State cw} (v : Symbol) (hn : 3 ≤ s.dec.cnt.toNat) :
    s.foldSymbol v =
      (s.setDec { s.dec with
        acc := BitVec.ofNat 7 ((s.dec.acc.toNat * 2 ^ 5 + v.toNat) % 2 ^ (s.dec.cnt.toNat - 3))
        cnt := BitVec.ofNat 3 (s.dec.cnt.toNat - 3) }).respondUnits
          [BitVec.ofNat 8 ((s.dec.acc.toNat * 2 ^ 5 + v.toNat) / 2 ^ (s.dec.cnt.toNat - 3))] := by
  have hA := toNat_pushBits s.dec.acc v (by decide : 7 + 5 ≤ 12)
  have h8 : 8 ≤ s.dec.cnt.toNat + 5 := by omega
  have hc := s.dec.cnt.isLt
  have hs : s.dec.cnt.toNat + 5 - 8 = s.dec.cnt.toNat - 3 := by omega
  have e1 : (lowBits ((s.dec.acc.setWidth 12 <<< 5) ||| v.setWidth 12) (s.dec.cnt.toNat - 3)).setWidth 7 =
      BitVec.ofNat 7 ((s.dec.acc.toNat * 2 ^ 5 + v.toNat) % 2 ^ (s.dec.cnt.toNat - 3)) := by
    apply BitVec.eq_of_toNat_eq
    rw [BitVec.toNat_setWidth, toNat_lowBits _ _ (by omega), hA, BitVec.toNat_ofNat]
  have e2 : window 8 ((s.dec.acc.setWidth 12 <<< 5) ||| v.setWidth 12) (s.dec.cnt.toNat + 5) =
      BitVec.ofNat 8 ((s.dec.acc.toNat * 2 ^ 5 + v.toNat) / 2 ^ (s.dec.cnt.toNat - 3)) := by
    apply BitVec.eq_of_toNat_eq
    rw [toNat_window, hA, BitVec.toNat_ofNat, hs]
  simp only [State.foldSymbol, h8, if_true, hs, e1, e2]

/-- DEC_ACC is free where R131 gives two answers (log entry 6). -/
theorem foldSymbol_outside {s : State cw} (v : Symbol) (hn : s.dec.cnt.toNat < 3)
    (ha : 2 ^ s.dec.cnt.toNat ≤ s.dec.acc.toNat) :
    s.foldSymbol v =
      (s.drawFree.setDec { s.dec with
        acc := Config.freeDecAcc s.freeCount
        cnt := BitVec.ofNat 3 (s.dec.cnt.toNat + 5) }).respondUnits [] := by
  have h8 : ¬ 8 ≤ s.dec.cnt.toNat + 5 := by omega
  simp only [State.foldSymbol, h8, Nat.not_lt.mpr ha, if_false]

/-- DEC.END's leftover report as a number (R132). -/
theorem toNat_leftoverInfo (d : DecUnit cw) : (leftoverInfo d).toNat = d.acc.toNat * 2 ^ 8 + d.cnt.toNat := by
  have ha := d.acc.isLt
  have hc := d.cnt.isLt
  have h : (leftoverInfo d).toNat = ((d.acc ++ 0#5) ++ d.cnt).toNat % 2 ^ 24 := BitVec.toNat_setWidth ..
  rw [h, toNat_append_eq_add, toNat_append_eq_add]
  simp only [BitVec.toNat_zero]
  omega

/-- STATUS's DATA as a number (R191). -/
theorem toNat_statusInfo (s : State cw) :
    (statusInfo s).toNat =
      s.enc.cnt.toNat + 2 ^ 4 * s.dec.cnt.toNat + 2 ^ 7 * s.dec.err.toNat + 2 ^ 8 * s.val.seen.toNat +
        2 ^ 9 * s.val.bad.toNat := by
  have he := s.enc.cnt.isLt
  have hd := s.dec.cnt.isLt
  have hb : ∀ x : Bool, x.toNat ≤ 1 := by decide
  have h1 := hb s.dec.err
  have h2 := hb s.val.seen
  have h3 := hb s.val.bad
  have h : (statusInfo s).toNat = ((((((BitVec.ofBool s.val.bad ++ BitVec.ofBool s.val.seen) ++
      BitVec.ofBool s.dec.err) ++ s.dec.cnt) ++ 0#1) ++ s.enc.cnt).toNat) % 2 ^ 24 := BitVec.toNat_setWidth ..
  rw [h]
  simp only [toNat_append_eq_add, BitVec.toNat_zero, BitVec.toNat_ofBool]
  omega

end Sys2Proof.Codec
end

