-- ==== Sys2Proof/Laws/Encoder.lean ====
section
/-! SUPPORT. ENC.BYTE's extractor and ENC.END's symbol as numbers: `acc * 2^8 + b` is the BitBuffer with the byte behind it
(spec 40_encoder.md R101, R102). -/

namespace Sys2Proof.Codec

open Sys2Proof.Machine

variable {cw : Nat}

/-- One symbol: with ENC_CNT + 8 < 10 pending bits (R101). -/
theorem encExtract_one {e : EncUnit} (b : Byte) (h : e.cnt.toNat < 2) :
    encExtract e b =
      { unit :=
          { acc := BitVec.ofNat 4 ((e.acc.toNat * 2 ^ 8 + b.toNat) % 2 ^ (e.cnt.toNat + 3))
            cnt := BitVec.ofNat 3 (e.cnt.toNat + 3) }
        first := BitVec.ofNat 5 ((e.acc.toNat * 2 ^ 8 + b.toNat) / 2 ^ (e.cnt.toNat + 3))
        second := none } := by
  have hA := toNat_pushBits e.acc b (by decide : 4 + 8 ≤ 12)
  have hn : ¬ 5 ≤ e.cnt.toNat + 8 - 5 := by omega
  simp only [encExtract, hn, if_false]
  rw [show e.cnt.toNat + 8 - 5 = e.cnt.toNat + 3 by omega]
  congr 1
  · congr 1
    apply BitVec.eq_of_toNat_eq
    rw [BitVec.toNat_setWidth, toNat_lowBits _ _ (by omega), hA, BitVec.toNat_ofNat]
  · apply BitVec.eq_of_toNat_eq
    rw [toNat_window, hA, BitVec.toNat_ofNat, show e.cnt.toNat + 8 - 5 = e.cnt.toNat + 3 by omega]

/-- Two symbols: with 10 to 12 pending bits (R101). -/
theorem encExtract_two {e : EncUnit} (b : Byte) (h : 2 ≤ e.cnt.toNat) (h4 : e.cnt.toNat ≤ 4) :
    encExtract e b =
      { unit :=
          { acc := BitVec.ofNat 4 ((e.acc.toNat * 2 ^ 8 + b.toNat) % 2 ^ (e.cnt.toNat - 2))
            cnt := BitVec.ofNat 3 (e.cnt.toNat - 2) }
        first := BitVec.ofNat 5 ((e.acc.toNat * 2 ^ 8 + b.toNat) / 2 ^ (e.cnt.toNat + 3))
        second := some (BitVec.ofNat 5 ((e.acc.toNat * 2 ^ 8 + b.toNat) / 2 ^ (e.cnt.toNat - 2))) } := by
  have hA := toNat_pushBits e.acc b (by decide : 4 + 8 ≤ 12)
  have hn : 5 ≤ e.cnt.toNat + 8 - 5 := by omega
  simp only [encExtract, hn, if_true]
  rw [show e.cnt.toNat + 8 - 5 - 5 = e.cnt.toNat - 2 by omega]
  congr 1
  · congr 1
    apply BitVec.eq_of_toNat_eq
    rw [BitVec.toNat_setWidth, toNat_lowBits _ _ (by omega), hA, BitVec.toNat_ofNat]
  · apply BitVec.eq_of_toNat_eq
    rw [toNat_window, hA, BitVec.toNat_ofNat, show e.cnt.toNat + 8 - 5 = e.cnt.toNat + 3 by omega]
  · congr 1
    apply BitVec.eq_of_toNat_eq
    rw [toNat_window, hA, BitVec.toNat_ofNat, show e.cnt.toNat + 8 - 5 - 5 = e.cnt.toNat - 2 by omega]

/-- The partial symbol: the pending bits in the high positions (R102). -/
theorem encPartial_eq_ofNat (e : EncUnit) :
    encPartial e = BitVec.ofNat 5 (e.acc.toNat * 2 ^ (5 - e.cnt.toNat)) := by
  apply BitVec.eq_of_toNat_eq
  have ha := e.acc.isLt
  rw [encPartial, BitVec.toNat_shiftLeft, BitVec.toNat_setWidth, BitVec.toNat_ofNat, Nat.shiftLeft_eq,
    Nat.mod_eq_of_lt (show e.acc.toNat < 2 ^ 5 by omega)]

/-- ENC.BYTE within the rules: registers, response, nothing else (R101). -/
theorem encByte_within (p : CodecParams cw) {s : State cw} (b : Byte) (h : s.enc.cnt.toNat ≤ 4) :
    encByte p b s = .next (s.emitSymbols p (encExtract s.enc b)) := by
  rw [encByte, if_pos h]

/-- ENC.BYTE outside the rules: the free values, and the index advances (log entry 5). -/
theorem encByte_outside (p : CodecParams cw) {s : State cw} (b : Byte) (h : 4 < s.enc.cnt.toNat) :
    encByte p b s = .next (s.drawFree.emitSymbols p (encExtractOpen s.freeCount)) := by
  rw [encByte, if_neg (by omega)]

/-- ENC.END with no bit pending (R102). -/
theorem encEnd_empty (p : CodecParams cw) {s : State cw} (h : s.enc.cnt = 0) :
    encEnd p s = .next ((s.setEnc EncUnit.idle).respondUnits []) := by
  rw [encEnd, if_pos h]

/-- ENC.END with 1 to 4 bits pending (R102). -/
theorem encEnd_partial (p : CodecParams cw) {s : State cw} (h : s.enc.cnt ≠ 0) (h4 : s.enc.cnt.toNat ≤ 4) :
    encEnd p s = .next ((s.setEnc EncUnit.idle).respondUnits [p.rom (encPartial s.enc)]) := by
  rw [encEnd, if_neg h, if_pos h4]

/-- ENC.END outside the rules: a free symbol (log entry 5). -/
theorem encEnd_outside (p : CodecParams cw) {s : State cw} (h : 4 < s.enc.cnt.toNat) :
    encEnd p s = .next ((s.drawFree.setEnc EncUnit.idle).respondUnits [p.rom (Config.freeEncFirst s.freeCount)]) := by
  have h0 : s.enc.cnt ≠ 0 := by
    intro e
    simp [e] at h
  rw [encEnd, if_neg h0, if_neg (by omega)]

end Sys2Proof.Codec
end

