-- ==== Sys2Proof/Laws/PerInstr.lean ====
section
/-! SUPPORT. Per-constructor lemmas of the family OpcodeRowMatch: a command's word matches its row of spec/opcode_table.json,
for every operand (spec 30_encoding.md R80, R83). -/

namespace Sys2Proof.Laws.OpcodeRowMatch

/-- The table has a row of the command's opcode, and the command's word matches it. -/
def Statement (i : Instr) : Prop :=
  ∃ r ∈ opcodeTable, r.opcode = i.opcode ∧ r.hits (encode i) = true

/-- A word of an opcode and an operand matches a row whose mask covers OPC and the operand bits m, all 0 in the operand. -/
theorem hits_of_parts {r : OpcodeRow} (o : Opcode) {x : BitVec 24} (m : BitVec 24)
    (hm : r.mask = (0xFF#8 ++ m : BitVec 32)) (hb : r.bits = (o.code ++ 0#24 : BitVec 32)) (ho : x &&& m = 0#24) :
    r.hits (o.code ++ x : BitVec 32) = true := by
  have hall : o.code &&& 0xFF#8 = o.code := by
    cases o <;> rfl
  have h : ((o.code ++ x : BitVec 32) &&& (0xFF#8 ++ m : BitVec 32)) = (o.code ++ 0#24 : BitVec 32) := by
    have e := BitVec.and_append (x₁ := o.code) (x₂ := 0xFF#8) (y₁ := x) (y₂ := m)
    rw [hall, ho] at e
    exact e
  rw [OpcodeRow.hits, hm, hb, beq_iff_eq]
  exact h

theorem encByte (b : Byte) : Statement (.encByte b) :=
  ⟨⟨.encByte, "ENC.BYTE", 0xFFFFFF00, 0x01000000⟩, by decide, rfl, hits_of_parts .encByte 0xFFFF00#24 rfl rfl (by
    ext i hi
    simp only [Instr.operand, zext24, BitVec.getElem_and, BitVec.getElem_setWidth, BitVec.getElem_zero]
    interval_cases i <;> simp [BitVec.getLsbD_of_ge])⟩

theorem encEnd : Statement .encEnd :=
  ⟨⟨.encEnd, "ENC.END", 0xFFFFFFFF, 0x02000000⟩, by decide, rfl, rfl⟩

theorem encClear : Statement .encClear :=
  ⟨⟨.encClear, "ENC.CLEAR", 0xFFFFFFFF, 0x03000000⟩, by decide, rfl, rfl⟩

theorem decChar (c : CharCode) : Statement (.decChar c) :=
  ⟨⟨.decChar, "DEC.CHAR", 0xFFE00000, 0x11000000⟩, by decide, rfl, hits_of_parts .decChar 0xE00000#24 rfl rfl (by
    ext i hi
    simp only [Instr.operand, zext24, BitVec.getElem_and, BitVec.getElem_setWidth, BitVec.getElem_zero]
    interval_cases i <;> simp [BitVec.getLsbD_of_ge])⟩

theorem decEnd : Statement .decEnd :=
  ⟨⟨.decEnd, "DEC.END", 0xFFFFFFFF, 0x12000000⟩, by decide, rfl, rfl⟩

theorem decClear : Statement .decClear :=
  ⟨⟨.decClear, "DEC.CLEAR", 0xFFFFFFFF, 0x13000000⟩, by decide, rfl, rfl⟩

theorem valChar (c : CharCode) : Statement (.valChar c) :=
  ⟨⟨.valChar, "VAL.CHAR", 0xFFE00000, 0x21000000⟩, by decide, rfl, hits_of_parts .valChar 0xE00000#24 rfl rfl (by
    ext i hi
    simp only [Instr.operand, zext24, BitVec.getElem_and, BitVec.getElem_setWidth, BitVec.getElem_zero]
    interval_cases i <;> simp [BitVec.getLsbD_of_ge])⟩

theorem valEnd : Statement .valEnd :=
  ⟨⟨.valEnd, "VAL.END", 0xFFFFFFFF, 0x22000000⟩, by decide, rfl, rfl⟩

theorem valClear : Statement .valClear :=
  ⟨⟨.valClear, "VAL.CLEAR", 0xFFFFFFFF, 0x23000000⟩, by decide, rfl, rfl⟩

theorem alphaRead (i : Symbol) : Statement (.alphaRead i) :=
  ⟨⟨.alphaRead, "ALPHA.READ", 0xFFFFFFE0, 0x31000000⟩, by decide, rfl, hits_of_parts .alphaRead 0xFFFFE0#24 rfl rfl (by
    ext j hj
    simp only [Instr.operand, zext24, BitVec.getElem_and, BitVec.getElem_setWidth, BitVec.getElem_zero]
    interval_cases j <;> simp [BitVec.getLsbD_of_ge])⟩

theorem status : Statement .status :=
  ⟨⟨.status, "STATUS", 0xFFFFFFFF, 0x32000000⟩, by decide, rfl, rfl⟩

end Sys2Proof.Laws.OpcodeRowMatch
end

