-- ==== Sys2Proof/Laws/Port.lean ====
section
/-! SUPPORT. The port and runs of commands: one lemma per case of the decode procedure (spec 30_encoding.md R83) and of the
rising edge (R72), and the laws of runs (20_memory.md R60); for any parameters and any `Step`, then for B32C. -/

namespace Sys2Proof.Codec

open Sys2Proof.Machine

variable {cw : Nat}

/-- A legal word runs its command (R83). -/
theorem runCommand_legal (p : CodecParams cw) {o : Opcode} {x : BitVec 24} (h : x.toNat < 2 ^ o.form.fieldWidthOf cw)
    (s : State cw) : runCommand p (commandWord o x) s = command p o x s := by
  have hf := (operandFitsOf_iff cw o.form x).mpr h
  simp [runCommand, hf]

/-- A word with a reserved bit set gets the ILLEGAL_COMMAND response (R76, R83). -/
theorem runCommand_reserved (p : CodecParams cw) {o : Opcode} {x : BitVec 24} (h : 2 ^ o.form.fieldWidthOf cw ≤ x.toNat)
    (s : State cw) : runCommand p (commandWord o x) s = .next (s.respondIllegal o.code) := by
  have hf : operandFitsOf cw o.form x = false := by
    rw [Bool.eq_false_iff]
    intro e
    have := (operandFitsOf_iff cw o.form x).mp e
    omega
  simp [runCommand, hf]

variable {run : Word → State cw → Host.Outcome (State cw) Fault Refusal}

/-- The reset edge (R240). -/
theorem edgeWith_reset {p : PortSample} (s : State cw) (h : p.rst = true) :
    edgeWith run p s = .next (s.recordTaken p).resetRegisters := by
  simp [edgeWith, h]

/-- The accepting edge (R71, R72). -/
theorem edgeWith_accepts {p : PortSample} {s : State cw} (h : accepts p s = true) :
    edgeWith run p s = run p.cmdData (s.recordTaken p) := by
  have hr : p.rst = false := by
    cases hp : p.rst <;> simp_all [accepts]
  simp [edgeWith, hr, h]

/-- The taking edge without a command (R72). -/
theorem edgeWith_takes {p : PortSample} {s : State cw} (hr : p.rst = false) (ha : accepts p s = false)
    (ht : takes p s = true) : edgeWith run p s = .next (s.recordTaken p).dropResponse := by
  simp [edgeWith, hr, ha, ht]

/-- The holding edge (R72, R246). -/
theorem edgeWith_holds {p : PortSample} {s : State cw} (hr : p.rst = false) (ha : accepts p s = false)
    (ht : takes p s = false) : edgeWith run p s = .next s := by
  simp [edgeWith, hr, ha, ht]

/-- What an edge can be: reset, an accepted command, a taken response, or nothing (R72). -/
theorem edgeWith_cases (p : PortSample) (s : State cw) :
    (p.rst = true ∧ edgeWith run p s = .next (s.recordTaken p).resetRegisters) ∨
    (p.rst = false ∧ accepts p s = true ∧ edgeWith run p s = run p.cmdData (s.recordTaken p)) ∨
    (p.rst = false ∧ accepts p s = false ∧ takes p s = true ∧
      edgeWith run p s = .next (s.recordTaken p).dropResponse) ∨
    (p.rst = false ∧ accepts p s = false ∧ takes p s = false ∧ edgeWith run p s = .next s) := by
  cases hr : p.rst
  · cases ha : accepts p s
    · cases ht : takes p s
      · exact .inr (.inr (.inr ⟨rfl, rfl, rfl, edgeWith_holds hr ha ht⟩))
      · exact .inr (.inr (.inl ⟨rfl, rfl, rfl, edgeWith_takes hr ha ht⟩))
    · exact .inr (.inl ⟨rfl, rfl, edgeWith_accepts ha⟩)
  · exact .inl ⟨rfl, edgeWith_reset s hr⟩

@[simp] theorem runWith_nil (s : State cw) : runWith run [] s = .next ([], s) := rfl

/-- One command of a run. -/
theorem runWith_cons {w : Word} {ws : List Word} {s s1 s2 : State cw} {rs : List Word}
    (h1 : run w s = .next s1) (h2 : runWith run ws s1 = .next (rs, s2)) :
    runWith run (w :: ws) s = .next (s1.rsp.data :: rs, s2) := by
  simp [runWith, h1, h2]

/-- A run that answers next took its first command and then the rest. -/
theorem runWith_cons_inv {w : Word} {ws : List Word} {s t : State cw} {rs : List Word}
    (h : runWith run (w :: ws) s = .next (rs, t)) :
    ∃ (s1 : State cw) (rs1 : List Word),
      run w s = .next s1 ∧ runWith run ws s1 = .next (rs1, t) ∧ rs = s1.rsp.data :: rs1 := by
  rw [runWith] at h
  split at h
  · next s1 h1 =>
    split at h
    · next rs1 s2 h2 =>
      injection h with h
      injection h with ha hb
      exact ⟨s1, rs1, h1, hb ▸ h2, ha.symm⟩
    · simp at h
    · simp at h
  · simp at h
  · simp at h

/-- A run of one list after another is the composition of the two runs (R60). -/
theorem runWith_append {ws1 ws2 : List Word} {s s1 s2 : State cw} {rs1 rs2 : List Word}
    (h1 : runWith run ws1 s = .next (rs1, s1)) (h2 : runWith run ws2 s1 = .next (rs2, s2)) :
    runWith run (ws1 ++ ws2) s = .next (rs1 ++ rs2, s2) := by
  induction ws1 generalizing s rs1 with
  | nil =>
    simp only [runWith_nil] at h1
    injection h1 with h1
    injection h1 with ha hb
    subst ha hb
    simpa using h2
  | cons w ws ih =>
    obtain ⟨t, rs, e1, e2, rfl⟩ := runWith_cons_inv h1
    exact runWith_cons e1 (ih e2)

end Sys2Proof.Codec

namespace Sys2Proof.Machine

open Sys2Proof.Codec (accepts takes)

/-- A word that decodes runs its command (R83). -/
theorem runCommand_of_decode {w : Word} {i : Instr} (h : decode w = .ok i) (s : State) :
    runCommand w s = exec i s := by
  simp [runCommand, h]

/-- An illegal word gets its response (R76). -/
theorem runCommand_of_illegal {w : Word} {e : Illegal} (h : decode w = .error e) (s : State) :
    runCommand w s = .next (s.respondIllegal e.opc) := by
  simp [runCommand, h]

/-- A step on a listed sample (R72). -/
theorem step_cons {s : State} {p : PortSample} {rest : List PortSample} (h : s.port = p :: rest) :
    step s = clockEdge p { s with port := rest } := by
  simp [step, Codec.State.nextSample, Codec.State.popSample, h]

/-- What an edge of B32C can be (R72). -/
theorem clockEdge_cases (p : PortSample) (s : State) :
    (p.rst = true ∧ clockEdge p s = .next (s.recordTaken p).resetRegisters) ∨
    (p.rst = false ∧ accepts p s = true ∧ clockEdge p s = runCommand p.cmdData (s.recordTaken p)) ∨
    (p.rst = false ∧ accepts p s = false ∧ takes p s = true ∧
      clockEdge p s = .next (s.recordTaken p).dropResponse) ∨
    (p.rst = false ∧ accepts p s = false ∧ takes p s = false ∧ clockEdge p s = .next s) :=
  Codec.edgeWith_cases p s

@[simp] theorem runCommands_nil (s : State) : runCommands [] s = .next ([], s) := rfl

/-- One command of a run of B32C. -/
theorem runCommands_cons {w : Word} {ws : List Word} {s s1 s2 : State} {rs : List Word}
    (h1 : runCommand w s = .next s1) (h2 : runCommands ws s1 = .next (rs, s2)) :
    runCommands (w :: ws) s = .next (s1.rsp.data :: rs, s2) :=
  Codec.runWith_cons h1 h2

/-- A run of B32C that answers next took its first command and then the rest. -/
theorem runCommands_cons_inv {w : Word} {ws : List Word} {s t : State} {rs : List Word}
    (h : runCommands (w :: ws) s = .next (rs, t)) :
    ∃ (s1 : State) (rs1 : List Word),
      runCommand w s = .next s1 ∧ runCommands ws s1 = .next (rs1, t) ∧ rs = s1.rsp.data :: rs1 :=
  Codec.runWith_cons_inv h

/-- A run of B32C of one list after another is the composition of the two runs (R60). -/
theorem runCommands_append {ws1 ws2 : List Word} {s s1 s2 : State} {rs1 rs2 : List Word}
    (h1 : runCommands ws1 s = .next (rs1, s1)) (h2 : runCommands ws2 s1 = .next (rs2, s2)) :
    runCommands (ws1 ++ ws2) s = .next (rs1 ++ rs2, s2) :=
  Codec.runWith_append h1 h2

/-- A run of steps takes its first step and then the rest. -/
theorem run_succ {k : Nat} {s t : State} (h : step s = .next t) :
    Host.Core.run Sys2Proof.core (k + 1) s = Host.Core.run Sys2Proof.core k t := by
  have h' : Sys2Proof.core.step s = .next t := h
  simp only [Host.Core.run, h']

/-- What holds of a state and is kept by every step holds after every run of steps. -/
theorem run_keeps {P : State → Prop} (keep : ∀ s t : State, P s → step s = .next t → P t) :
    ∀ (k : Nat) (s t : State), P s → Host.Core.run Sys2Proof.core k s = .next t → P t := by
  intro k
  induction k with
  | zero =>
    intro s t hs h
    have e : s = t := by injection h
    exact e ▸ hs
  | succ k ih =>
    intro s t hs h
    rcases hstep : step s with s1 | f | r
    · rw [run_succ hstep] at h
      exact ih s1 t (keep s s1 hs hstep) h
    · cases f
    · have e : Host.Core.run Sys2Proof.core (k + 1) s = .refused r := by
        have hs' : Sys2Proof.core.step s = .refused r := hstep
        simp only [Host.Core.run, hs']
      simp [e] at h

end Sys2Proof.Machine
end

