-- ==== Sys2Proof/Laws/Reference.lean ====
section
/-! SUPPORT. The reference functions one element at a time, with the accumulators as numbers (spec 40_encoder.md R100,
41_decoder.md R130). -/

namespace Sys2Proof

variable {cw : Nat}

/-- A slice of the accumulator, as R100 and R130 write it. -/
theorem ofNat_slice (w acc k : Nat) :
    BitVec.ofNat w ((acc >>> k) &&& (2 ^ w - 1)) = BitVec.ofNat w (acc / 2 ^ k) := by
  apply BitVec.eq_of_toNat_eq
  rw [Nat.and_two_pow_sub_one_eq_mod, Nat.shiftRight_eq_div_pow]
  simp

/-- The accumulator with new low bits. -/
theorem shiftLeft_or_eq_add (acc k x : Nat) (h : x < 2 ^ k) : (acc <<< k) ||| x = acc * 2 ^ k + x := by
  rw [← Nat.shiftLeft_add_eq_or_of_lt h, Nat.shiftLeft_eq]

/-- One byte with fewer than 2 bits pending emits one symbol (R100). -/
theorem encodeLoop_cons_one (p : CodecParams cw) (b : Byte) (bs : List Byte) (acc n : Nat) (h : n < 2) :
    encodeLoop p (b :: bs) acc n =
      p.rom (BitVec.ofNat 5 ((acc * 2 ^ 8 + b.toNat) / 2 ^ (n + 3))) ::
        encodeLoop p bs (acc * 2 ^ 8 + b.toNat) (n + 3) := by
  have hs := ofNat_slice 5
  simp only [show 2 ^ 5 - 1 = 0x1F from rfl] at hs
  rw [encodeLoop, shiftLeft_or_eq_add _ _ _ b.isLt]
  simp only [show n + 8 = (n + 7) + 1 by omega, encodeWhile, show 5 ≤ n + 7 + 1 by omega, if_true,
    show n + 7 + 1 - 5 = n + 3 by omega]
  simp only [show ¬ 5 ≤ n + 3 by omega, if_false, hs]
  rfl

/-- One byte with 2 to 4 bits pending emits two symbols (R100). -/
theorem encodeLoop_cons_two (p : CodecParams cw) (b : Byte) (bs : List Byte) (acc n : Nat) (h : 2 ≤ n) (h4 : n ≤ 4) :
    encodeLoop p (b :: bs) acc n =
      p.rom (BitVec.ofNat 5 ((acc * 2 ^ 8 + b.toNat) / 2 ^ (n + 3))) ::
        p.rom (BitVec.ofNat 5 ((acc * 2 ^ 8 + b.toNat) / 2 ^ (n - 2))) ::
          encodeLoop p bs (acc * 2 ^ 8 + b.toNat) (n - 2) := by
  have hs := ofNat_slice 5
  simp only [show 2 ^ 5 - 1 = 0x1F from rfl] at hs
  rw [encodeLoop, shiftLeft_or_eq_add _ _ _ b.isLt]
  simp only [show n + 8 = (n + 7) + 1 by omega, encodeWhile, show 5 ≤ n + 7 + 1 by omega, if_true,
    show n + 7 + 1 - 5 = n + 3 by omega]
  simp only [show 5 ≤ n + 3 by omega, if_true,
    show n + 3 - 5 = n - 2 by omega]
  simp only [show ¬ 5 ≤ n - 2 by omega, if_false, hs]
  rfl

/-- The end of the message: the partial symbol, if bits are pending (R100). -/
theorem encodeLoop_nil (p : CodecParams cw) (acc n : Nat) :
    encodeLoop p [] acc n = if 0 < n then [p.rom (BitVec.ofNat 5 (acc * 2 ^ (5 - n)))] else [] := by
  have h : BitVec.ofNat 5 ((acc <<< (5 - n)) &&& 0x1F) = BitVec.ofNat 5 (acc * 2 ^ (5 - n)) := by
    apply BitVec.eq_of_toNat_eq
    rw [show 0x1F = 2 ^ 5 - 1 from rfl, Nat.and_two_pow_sub_one_eq_mod, Nat.shiftLeft_eq]
    simp
  simp only [encodeLoop, h]

/-- A miss ends the message (R130). -/
theorem decodeLoop_cons_miss {p : CodecParams cw} {c : BitVec cw} (cs : List (BitVec cw)) (acc n : Nat)
    (h : (p.inv c).hit = false) : decodeLoop p (c :: cs) acc n = .invalidCharacter c := by
  simp [decodeLoop, h]

/-- A hit with at most 2 bits pending emits nothing (R130). -/
theorem decodeLoop_cons_quiet {p : CodecParams cw} {c : BitVec cw} (cs : List (BitVec cw)) (acc n : Nat)
    (h : (p.inv c).hit = true) (hn : n < 3) :
    decodeLoop p (c :: cs) acc n = decodeLoop p cs (acc * 2 ^ 5 + (p.inv c).idx.toNat) (n + 5) := by
  simp only [decodeLoop, h, if_true, show ¬ 8 ≤ n + 5 by omega, if_false,
    shiftLeft_or_eq_add _ _ _ (p.inv c).idx.isLt]

/-- A hit with at least 3 bits pending emits a byte (R130). -/
theorem decodeLoop_cons_emits {p : CodecParams cw} {c : BitVec cw} (cs : List (BitVec cw)) (acc n : Nat)
    (h : (p.inv c).hit = true) (hn : 3 ≤ n) :
    decodeLoop p (c :: cs) acc n =
      (decodeLoop p cs (acc * 2 ^ 5 + (p.inv c).idx.toNat) (n - 3)).cons
        (BitVec.ofNat 8 ((acc * 2 ^ 5 + (p.inv c).idx.toNat) / 2 ^ (n - 3))) := by
  have hs := ofNat_slice 8
  simp only [show 2 ^ 8 - 1 = 0xFF from rfl] at hs
  simp only [decodeLoop, h, if_true, show 8 ≤ n + 5 by omega, shiftLeft_or_eq_add _ _ _ (p.inv c).idx.isLt,
    show n + 5 - 8 = n - 3 by omega, hs]

end Sys2Proof
end

