-- ==== Sys2Proof/Laws/Rom.lean ====
section
/-! SUPPORT. The inverse lookup against the ROM, over any parameters (spec 10_state.md R23, R24). -/

namespace Sys2Proof

variable {cw : Nat}

/-- A hit gives an index whose entry is the code (R24). -/
theorem CodecParams.rom_of_hit {p : CodecParams cw} {c : BitVec cw} (h : (p.inv c).hit = true) :
    (p.rom (p.inv c).idx).setWidth cw = c := by
  unfold CodecParams.inv at h ⊢
  split at h
  · next i hi =>
    have := List.find?_some hi
    simpa using this
  · simp at h

/-- A code that is an entry hits (R24). -/
theorem CodecParams.hit_of_rom {p : CodecParams cw} {c : BitVec cw} {i : Symbol} (h : (p.rom i).setWidth cw = c) :
    (p.inv c).hit = true := by
  unfold CodecParams.inv
  split
  · rfl
  · next hn =>
    have := List.find?_eq_none.mp hn i.toNat (List.mem_range.mpr i.isLt)
    simp [h] at this

/-- A miss gives index 0 (R24). -/
theorem CodecParams.idx_of_miss {p : CodecParams cw} {c : BitVec cw} (h : (p.inv c).hit = false) : (p.inv c).idx = 0 := by
  unfold CodecParams.inv at h ⊢
  split at h
  · simp at h
  · rfl

/-- Well-formed parameters have distinct entries (R7). -/
theorem CodecParams.distinct_of_wf {p : CodecParams cw} (hp : p.wf = true) : p.distinct = true := by
  simp_all [CodecParams.wf]

/-- CHAR_W fits OPERAND and DATA (log entry 8). -/
theorem CodecParams.width_le_of_wf {p : CodecParams cw} (hp : p.wf = true) : cw ≤ 24 := by
  simp_all [CodecParams.wf, CodecParams.widthFits]

/-- CHAR_W holds every entry (93_implementation_defined.md U13). -/
theorem CodecParams.rom_lt_of_wf {p : CodecParams cw} (hp : p.wf = true) (i : Symbol) : (p.rom i).toNat < 2 ^ cw := by
  have h : p.alphabet.toList.all (fun b => decide (b.toNat < 2 ^ cw)) = true := by
    simp_all [CodecParams.wf, CodecParams.widthFits]
  have hm : p.rom i ∈ p.alphabet.toList := by
    simp [CodecParams.rom, Vector.get]
  exact of_decide_eq_true (List.all_eq_true.mp h _ hm)

/-- An entry is no whitespace (R161). -/
theorem CodecParams.isWs_rom {p : CodecParams cw} (hp : p.wf = true) (i : Symbol) :
    p.isWs ((p.rom i).setWidth cw) = false := by
  have h : p.alphabet.toList.all (fun b => !p.wsSet.contains (b.setWidth cw)) = true := by
    simp_all [CodecParams.wf, CodecParams.wsDisjoint]
  have hm : p.rom i ∈ p.alphabet.toList := by
    simp [CodecParams.rom, Vector.get]
  have := List.all_eq_true.mp h _ hm
  simpa [CodecParams.isWs] using this

/-- Distinct entries make the ROM injective (R23). -/
theorem CodecParams.rom_injective {p : CodecParams cw} (hp : p.distinct = true) {i j : Symbol} (h : p.rom i = p.rom j) :
    i = j := by
  have hn : p.alphabet.toList.Nodup := of_decide_eq_true hp
  have hi : i.toNat < p.alphabet.toList.length := by simpa using i.isLt
  have hj : j.toNat < p.alphabet.toList.length := by simpa using j.isLt
  have e : p.alphabet.toList[i.toNat] = p.alphabet.toList[j.toNat] := by
    simpa [CodecParams.rom, Vector.get] using h
  exact BitVec.eq_of_toNat_eq ((List.Nodup.getElem_inj_iff hn).mp e)

/-- The inverse lookup undoes the ROM (R23, R24). -/
theorem CodecParams.inv_rom {p : CodecParams cw} (hp : p.wf = true) (i : Symbol) :
    p.inv ((p.rom i).setWidth cw) = { hit := true, idx := i } := by
  have hit := CodecParams.hit_of_rom (p := p) (i := i) rfl
  have e := CodecParams.rom_of_hit hit
  have e8 : p.rom (p.inv ((p.rom i).setWidth cw)).idx = p.rom i := by
    have e' := congrArg BitVec.toNat e
    simp only [BitVec.toNat_setWidth, Nat.mod_eq_of_lt (CodecParams.rom_lt_of_wf hp _)] at e'
    exact BitVec.eq_of_toNat_eq e'
  have idx := CodecParams.rom_injective (CodecParams.distinct_of_wf hp) e8
  generalize p.inv ((p.rom i).setWidth cw) = r at hit idx
  cases r
  simp_all

/-- The B32C parameters are as R7 and R161 require. -/
theorem b32c_wf : b32c.wf = true := by decide

end Sys2Proof
end

