-- ==== Sys2Proof/Laws/Safety.lean ====
section
/-! SUPPORT. Which responses and which idle units meet the invariants of Safety.lean. -/

namespace Sys2Proof.Machine

/-- A response built by `respond` with a COUNT of at most 2 is one (R77, R78, R215). -/
theorem responseOk_respWord (st : RspStatus) {n : BitVec 2} (d : BitVec 24) (hn : n.toNat ≤ 2) :
    ResponseOk (respWord st n d) := by
  refine ⟨?_, ?_, ?_⟩
  · rw [rspStatus_respWord]
    cases st <;> decide
  · rwa [rspCount_respWord]
  · rw [rspRsvd_respWord]
    rfl

/-- COUNT is 0 for an information word. -/
theorem responseOk_info (st : RspStatus) (d : BitVec 24) : ResponseOk (respWord st 0#2 d) :=
  responseOk_respWord st d (by decide)

/-- COUNT is 1 for one unit. -/
theorem responseOk_one (st : RspStatus) (d : BitVec 24) : ResponseOk (respWord st 1#2 d) :=
  responseOk_respWord st d (by decide)

/-- COUNT is 2 for two units. -/
theorem responseOk_two (st : RspStatus) (d : BitVec 24) : ResponseOk (respWord st 2#2 d) :=
  responseOk_respWord st d (by decide)

theorem EncUnit.idle_ok : EncUnit.idle.Ok := by decide

theorem DecUnit.idle_ok {cw : Nat} : (DecUnit.idle : DecUnit cw).Ok :=
  ⟨by simp [DecUnit.idle], fun _ => ⟨rfl, rfl⟩, fun _ => rfl⟩

theorem ValUnit.idle_ok {cw : Nat} : (ValUnit.idle : ValUnit cw).Ok :=
  fun _ => rfl

end Sys2Proof.Machine
end

