-- ==== Sys2Proof/Tests/Slice0.lean ====
section
/-! SUPPORT. Tests on fixed values: WellFormed's checks, decoding of words written out from spec 30_encoding.md R74, R75 and
R80, single steps whose expected values are those of 95_test_vectors.md, and a witness for the hypotheses of every
obligation that has some. -/

namespace Sys2Proof.Tests

open Sys2Proof Sys2Proof.Machine
open Sys2Proof.Codec (offerSample)

/-! ## Small states, and what a step leaves -/

/-- After reset, with the given ENC registers. -/
def encAt (acc : BitVec 4) (cnt : BitVec 3) : State :=
  { State.reset with enc := { acc := acc, cnt := cnt } }

/-- After reset, with the given DEC registers. -/
def decAt (acc : BitVec 7) (cnt : BitVec 3) (err : Bool) (errch : CharCode) : State :=
  { State.reset with dec := { acc := acc, cnt := cnt, err := err, errch := errch } }

/-- After reset, with the given VAL registers. -/
def valAt (seen bad : Bool) (badch : CharCode) : State :=
  { State.reset with val := { seen := seen, bad := bad, badch := badch } }

/-- After reset, with the given samples to come. -/
def portAt (ps : List PortSample) : State :=
  { State.reset with port := ps }

/-- A response waits, and the given samples are to come. -/
def waitingAt (r : Word) (ps : List PortSample) : State :=
  { State.reset with rsp := { valid := true, data := r }, port := ps }

/-- `rst` high, nothing else. -/
def resetSample : PortSample :=
  { rst := true, cmdValid := false, cmdData := 0, rspReady := false }

/-- The host takes responses and offers nothing. -/
def takeSample : PortSample :=
  { rst := false, cmdValid := false, cmdData := 0, rspReady := true }

/-- The host offers a command and takes nothing. -/
def pushSample (w : Word) : PortSample :=
  { rst := false, cmdValid := true, cmdData := w, rspReady := false }

/-- The next state, if there is one. -/
def nextOf (o : Host.Outcome State Fault Refusal) : Option State :=
  match o with
  | .next t => some t
  | .fault _ => none
  | .refused _ => none

/-- The response of a word and the unit's registers it leaves, as a row of 95_test_vectors.md gives them. -/
def row {α : Type} (regs : State → α) (s : State) (w : Word) : Option (Word × α) :=
  (nextOf (runCommand w s)).map (fun t => (t.rsp.data, regs t))

/-- What the decoder reads. -/
def reads (w : Word) : Option Instr :=
  decodeTableWord 32 w.toNat

/-! ## WellFormed: an ill-formed term for each check -/

/-- 'B' stands twice (R7). -/
theorem test_wf_refuses_duplicate_entry :
    ({ b32c with alphabet := alphabetCodes.set 1 0x42 } : CodecParams 21).distinct = false := by decide

/-- A space in the alphabet is whitespace too (R161). -/
theorem test_wf_refuses_whitespace_entry :
    ({ b32c with alphabet := alphabetCodes.set 0 0x20 } : CodecParams 21).wsDisjoint = false := by decide

/-- A character code of 6 bits holds no ASCII letter, and one of 25 bits fits no OPERAND (R7, R74). -/
theorem test_wf_refuses_widths :
    ({ alphabet := alphabetCodes, wsSet := [] } : CodecParams 6).widthFits = false ∧
    ({ alphabet := alphabetCodes, wsSet := [] } : CodecParams 25).widthFits = false := by decide

/-- An 8-bit alphabet code does not fit 7 bits (R24). -/
theorem test_wf_refuses_wide_entry :
    ({ alphabet := alphabetCodes.set 0 0x80, wsSet := [] } : CodecParams 7).widthFits = false := by decide

/-- One bit above each form's field (R75). -/
theorem test_wf_refuses_reserved_bits :
    operandFits .b8 0x000100 = false ∧ operandFits .ch 0x200000 = false ∧ operandFits .ix 0x000020 = false ∧
    operandFits .no 0x000001 = false := by decide

/-- The largest value of each form's field fits. -/
theorem test_wf_admits_largest_operands :
    operandFits .b8 0x0000FF = true ∧ operandFits .ch 0x1FFFFF = true ∧ operandFits .ix 0x00001F = true ∧
    operandFits .no 0x000000 = true := by decide

/-- Operands out of range are assembly errors (R85). -/
theorem test_asm_refuses_operands_out_of_range :
    assemble (.command .encByte (.int 256)) = none ∧ assemble (.command .decChar (.codePoint 0x200000)) = none ∧
    assemble (.command .alphaRead (.int 32)) = none ∧ assemble (.command .status (.int 0)) = none := by decide

theorem test_b32c_is_well_formed : b32c.wf = true := by decide

/-! ## Decoding: words written out bit by bit, OPC then OPERAND -/

theorem test_decode_enc_byte : reads 0b00000001_0000000000000000_01101000 = some (.encByte 0x68) := by decide

theorem test_decode_enc_end : reads 0b00000010_000000000000000000000000 = some .encEnd := by decide

theorem test_decode_enc_clear : reads 0b00000011_000000000000000000000000 = some .encClear := by decide

theorem test_decode_dec_char : reads 0b00010001_000_100000000000001000010 = some (.decChar 0x100042) := by decide

theorem test_decode_dec_end : reads 0b00010010_000000000000000000000000 = some .decEnd := by decide

theorem test_decode_dec_clear : reads 0b00010011_000000000000000000000000 = some .decClear := by decide

theorem test_decode_val_char : reads 0b00100001_000_000000011000000000000 = some (.valChar 0x3000) := by decide

theorem test_decode_val_end : reads 0b00100010_000000000000000000000000 = some .valEnd := by decide

theorem test_decode_val_clear : reads 0b00100011_000000000000000000000000 = some .valClear := by decide

theorem test_decode_alpha_read : reads 0b00110001_0000000000000000000_10001 = some (.alphaRead 17) := by decide

theorem test_decode_status : reads 0b00110010_000000000000000000000000 = some .status := by decide

/-- The lowest and the highest reserved bit of each form, and unassigned opcodes (R76, R81). -/
theorem test_decode_rejects_by_name :
    decode 0x01000100 = .error (.reservedBits 0x01) ∧ decode 0x01800000 = .error (.reservedBits 0x01) ∧
    decode 0x02000001 = .error (.reservedBits 0x02) ∧ decode 0x11200000 = .error (.reservedBits 0x11) ∧
    decode 0x31000020 = .error (.reservedBits 0x31) ∧ decode 0x00000000 = .error (.unassignedOpcode 0x00) ∧
    decode 0xFFFFFFFF = .error (.unassignedOpcode 0xFF) := ⟨rfl, rfl, rfl, rfl, rfl, rfl, rfl⟩

/-- The examples of R85. -/
theorem test_encode_examples :
    encode (.encByte 0x68) = 0x01000068 ∧ encode (.decChar 0x42) = 0x11000042 ∧ encode (.valChar 0x3000) = 0x21003000 ∧
    encode (.alphaRead 31) = 0x3100001F ∧ encode .status = 0x32000000 := by decide

/-! ## Lines of assembly: the examples of R85, and the pseudo-instructions of R86 -/

theorem test_asm_examples :
    assembleLine "ENC.BYTE 0x68".toList = some [0x01000068] ∧ assembleLine "DEC.CHAR 'B'".toList = some [0x11000042] ∧
    assembleLine "VAL.CHAR U+3000 ; space".toList = some [0x21003000] ∧
    assembleLine "ALPHA.READ 31".toList = some [0x3100001F] ∧ assembleLine "STATUS".toList = some [0x32000000] := by decide

theorem test_asm_pseudo :
    assembleLine "ENC.MSG 104, 0x69".toList = some [0x01000068, 0x01000069, 0x02000000] ∧
    assembleLine "VAL.MSG \"\\t\\\"\"".toList = some [0x21000009, 0x21000022, 0x22000000] ∧
    assembleLine "UNITS.CLEAR".toList = some [0x03000000, 0x13000000, 0x23000000] := by decide

/-! ## Single commands: 95_test_vectors.md sections 2 to 5 -/

theorem test_enc_byte_one_symbol :
    row Codec.State.enc (encAt 0b0001 1) 0x010000A5 = some (0x04000038, { acc := 0b0101, cnt := 4 }) := by decide

theorem test_enc_byte_two_symbols :
    row Codec.State.enc (encAt 0b0111 3) 0x010000A5 = some (0x08005930, { acc := 0b1, cnt := 1 }) := by decide

theorem test_enc_end_shifts_left :
    row Codec.State.enc (encAt 0b0111 3) 0x02000000 = some (0x04000041, { acc := 0, cnt := 0 }) := by decide

theorem test_enc_end_idle : row Codec.State.enc (encAt 0 0) 0x02000000 = some (0x00000000, { acc := 0, cnt := 0 }) := by decide

theorem test_enc_clear : row Codec.State.enc (encAt 0b0101 3) 0x03000000 = some (0x00000000, { acc := 0, cnt := 0 }) := by
  decide

theorem test_dec_char_emits :
    row Codec.State.dec (decAt 0b0011111 5 false 0) 0x11000042 =
      some (0x040000F8, { acc := 0, cnt := 2, err := false, errch := 0 }) := by decide

/-- A miss, and in sticky error a character of the alphabet. -/
theorem test_dec_char_misses_and_aborts :
    row Codec.State.dec (decAt 0b0000011 2 false 0) 0x11000062 =
      some (0x10000062, { acc := 0, cnt := 0, err := true, errch := 0x62 }) ∧
    row Codec.State.dec (decAt 0 0 true 0x49) 0x11000042 =
      some (0x50000000, { acc := 0, cnt := 0, err := true, errch := 0x49 }) := by decide

theorem test_dec_end_leftover :
    row Codec.State.dec (decAt 0b1111111 7 false 0) 0x12000000 =
      some (0x00007F07, { acc := 0, cnt := 0, err := false, errch := 0 }) := by decide

theorem test_dec_end_sticky :
    row Codec.State.dec (decAt 0 0 true 0x3000) 0x12000000 =
      some (0x10003000, { acc := 0, cnt := 0, err := false, errch := 0 }) := by decide

theorem test_dec_clear :
    row Codec.State.dec (decAt 0 0 true 0x21) 0x13000000 =
      some (0x00000000, { acc := 0, cnt := 0, err := false, errch := 0 }) := by decide

theorem test_val_char_whitespace :
    row Codec.State.val (valAt false false 0) 0x21000020 =
      some (0x00000000, { seen := false, bad := true, badch := 0x20 }) := by decide

theorem test_val_char_keeps_first_miss :
    row Codec.State.val (valAt true true 0x21) 0x21000049 =
      some (0x00000000, { seen := true, bad := true, badch := 0x21 }) := by decide

theorem test_val_end_bad :
    row Codec.State.val (valAt true true 0x21) 0x22000000 =
      some (0x30000021, { seen := false, bad := false, badch := 0 }) := by decide

theorem test_val_end_empty :
    row Codec.State.val (valAt false true 0x20) 0x22000000 =
      some (0x20000000, { seen := false, bad := false, badch := 0 }) := by decide

theorem test_val_clear :
    row Codec.State.val (valAt true true 0x21) 0x23000000 =
      some (0x00000000, { seen := false, bad := false, badch := 0 }) := by decide

theorem test_alpha_read_last : row Codec.State.enc State.reset 0x3100001F = some (0x04000031, { acc := 0, cnt := 0 }) := by
  decide

theorem test_status_dec_count :
    row Codec.State.enc (decAt 0b0000000 7 false 0) 0x32000000 = some (0x00000070, { acc := 0, cnt := 0 }) := by decide

theorem test_status_flags :
    row Codec.State.enc
      { State.reset with
        enc := { acc := 0b111, cnt := 3 }
        dec := { acc := 0, cnt := 0, err := true, errch := 0x49 }
        val := { seen := true, bad := true, badch := 0x21 } } 0x32000000 =
      some (0x00000383, { acc := 0b111, cnt := 3 }) := by decide

/-! ## The port: spec 30_encoding.md R72, by hand -/

/-- The word placed by `withFetchWord` is run by the next step. -/
theorem test_step_runs_fetch_word :
    (nextOf (step (State.reset.withFetchWord 32 0x010000FF))).map (fun t => (t.rsp, t.enc, t.port)) =
      some ({ valid := true, data := 0x04000031 }, { acc := 0b111, cnt := 3 }, []) := by decide

/-- A command offered while an untaken response waits is not accepted. -/
theorem test_step_holds_untaken_response :
    nextOf (step (waitingAt 0x04000042 [pushSample 0x010000FF])) = some (waitingAt 0x04000042 []) := by decide

/-- Reset wins over an offered command. -/
theorem test_step_reset_wins :
    nextOf (step { encAt 0b101 3 with port := [{ pushSample 0x010000FF with rst := true }] }) = some State.reset := by
  decide

/-! ## Other parameters: spec 00_scope.md R7, 30_encoding.md R75, by hand -/

/-- B32C's alphabet at CHAR_W = 7, with the space as the only whitespace. -/
def ascii7 : CodecParams 7 :=
  { alphabet := alphabetCodes, wsSet := [0x20] }

/-- A block with these parameters, idle. -/
def state7 : Codec.State 7 :=
  { enc := EncUnit.idle, dec := DecUnit.idle, val := ValUnit.idle, rsp := RspReg.empty, port := [], taken := [],
    freeCount := 0 }

/-- The tab is no whitespace here, so VAL.CHAR sees a bad character outside WS_SET. -/
theorem test_val_char_other_whitespace :
    Codec.runCommand ascii7 0x21000009 state7 = .next
      { state7 with
        val := { seen := true, bad := true, badch := 0x09 }
        rsp := { valid := true, data := 0x00000000 } } := rfl

/-- OPERAND[23:7] is reserved here. -/
theorem test_dec_char_other_width :
    Codec.runCommand ascii7 0x11000080 state7 =
      .next { state7 with rsp := { valid := true, data := 0x40000011 } } := rfl

/-! ## Witnesses: states and operands that meet an obligation's hypotheses -/

theorem witness_encode_of_decode : decode 0x111FFFFF = .ok (.decChar 0x1FFFFF) := rfl

theorem witness_illegal_unassigned : ∀ w ∈ [(0x00000000 : Word), 0x04000000, 0xFF000000],
    ∀ o : Opcode, o.code ≠ w.extractLsb' 24 8 := by
  intro w hw o
  simp only [List.mem_cons, List.not_mem_nil, or_false] at hw
  rcases hw with rfl | rfl | rfl <;> cases o <;> decide

theorem witness_illegal_reserved :
    (∃ o : Opcode, o.code = (0x01000100 : Word).extractLsb' 24 8 ∧
      2 ^ o.form.fieldWidth ≤ ((0x01000100 : Word).extractLsb' 0 24).toNat) ∧
    (∃ o : Opcode, o.code = (0x11200000 : Word).extractLsb' 24 8 ∧
      2 ^ o.form.fieldWidth ≤ ((0x11200000 : Word).extractLsb' 0 24).toNat) ∧
    (∃ o : Opcode, o.code = (0x31000020 : Word).extractLsb' 24 8 ∧
      2 ^ o.form.fieldWidth ≤ ((0x31000020 : Word).extractLsb' 0 24).toNat) ∧
    (∃ o : Opcode, o.code = (0x32000001 : Word).extractLsb' 24 8 ∧
      2 ^ o.form.fieldWidth ≤ ((0x32000001 : Word).extractLsb' 0 24).toNat) :=
  ⟨⟨.encByte, by decide⟩, ⟨.decChar, by decide⟩, ⟨.alphaRead, by decide⟩, ⟨.status, by decide⟩⟩

theorem witness_assembled_line :
    assemble (.decMsg [0x42, 0x1FFFFF]) = some [0x11000042, 0x111FFFFF, 0x12000000] ∧
    (∀ n, AsmLine.decMsg [0x42, 0x1FFFFF] ≠ .word n) :=
  ⟨by decide, fun _ => by simp⟩

/-- Both clauses of the inverse lookup: 'B' and '1' are entries 0 and 31, 'I' is none. -/
theorem witness_inverse_lookup :
    b32c.wf = true ∧ (b32c.rom 0).setWidth 21 = (0x42 : CharCode) ∧ (b32c.rom 31).setWidth 21 = (0x31 : CharCode) ∧
    (∀ i : Symbol, (b32c.rom i).setWidth 21 ≠ (0x49 : CharCode)) := by decide

/-- n = 8 and 9 take the clause of one symbol, n = 10 and 12 that of two; with 0 pending ENC.END emits none. -/
theorem witness_enc_ok :
    (encAt 0 0).enc.Ok ∧ (encAt 0b0001 1).enc.Ok ∧ (encAt 0b0011 2).enc.Ok ∧ (encAt 0b0111 3).enc.Ok ∧
    (encAt 0b1111 4).enc.Ok ∧ (encAt 0b0001 1).enc.cnt.toNat + 8 < 10 ∧ 10 ≤ (encAt 0b0011 2).enc.cnt.toNat + 8 := by
  decide

/-- The counts with no rule, 5 to 7. -/
theorem witness_enc_outside : 4 < (encAt 0 5).enc.cnt.toNat ∧ 4 < (encAt 0b1111 7).enc.cnt.toNat := by decide

theorem witness_encoder_next :
    (∃ t, exec (.encByte 0xA5) (encAt 0b0001 1) = .next t ∧ outputUnits t.rsp.data = [0x38]) ∧
    (∃ t, exec .encEnd (encAt 0b0111 3) = .next t ∧ outputUnits t.rsp.data = [0x41]) :=
  ⟨⟨_, rfl, by decide⟩, ⟨_, rfl, by decide⟩⟩

/-- The clauses of DEC.CHAR: sticky error, miss, hit with n = 7 and with n = 8 (and 12). -/
theorem witness_dec_char :
    (decAt 0 0 true 0x49).dec.err = true ∧
    ((decAt 0b11 2 false 0).dec.err = false ∧ (inv 0x49).hit = false) ∧
    ((decAt 0b11 2 false 0).dec.err = false ∧ (inv 0x42).hit = true ∧ (decAt 0b11 2 false 0).dec.Ok ∧
      (decAt 0b11 2 false 0).dec.cnt.toNat + 5 < 8) ∧
    ((decAt 0b111 3 false 0).dec.err = false ∧ (inv 0x31).hit = true ∧ (decAt 0b111 3 false 0).dec.Ok ∧
      8 ≤ (decAt 0b111 3 false 0).dec.cnt.toNat + 5) ∧
    (decAt 0b1111111 7 false 0).dec.Ok := by decide

/-- Every DEC_CNT has a state that meets the mux table's hypotheses. -/
theorem witness_dec_mux_table :
    ∀ n : BitVec 3, (decAt (BitVec.ofNat 7 (2 ^ n.toNat - 1)) n false 0).dec.Ok ∧
      (decAt (BitVec.ofNat 7 (2 ^ n.toNat - 1)) n false 0).dec.cnt = n ∧ (inv 0x31).hit = true := by decide

/-- DEC_ACC ≥ 2^DEC_CNT at both ends of DEC_CNT's range. -/
theorem witness_dec_char_outside :
    ((decAt 0b1 0 false 0).dec.err = false ∧ (inv 0x42).hit = true ∧ (decAt 0b1 0 false 0).dec.cnt.toNat ≤ 2 ∧
      2 ^ (decAt 0b1 0 false 0).dec.cnt.toNat ≤ (decAt 0b1 0 false 0).dec.acc.toNat) ∧
    ((decAt 0b1111111 2 false 0).dec.cnt.toNat ≤ 2 ∧
      2 ^ (decAt 0b1111111 2 false 0).dec.cnt.toNat ≤ (decAt 0b1111111 2 false 0).dec.acc.toNat) := by decide

/-- DEC.END in sticky error and without it; the first state is also one for the sticky error's run of characters. -/
theorem witness_dec_end : (decAt 0 0 true 0x49).dec.err = true ∧ (decAt 0b11 2 false 0).dec.err = false := by decide

/-- The three ways out of the sticky error. -/
theorem witness_leave_sticky_error :
    ∀ p ∈ [resetSample, pushSample 0x12000000, pushSample 0x13000000],
      ∃ t, step { decAt 0 0 true 0x49 with port := [p] } = .next t ∧ t.dec.err = false := by
  intro p hp
  simp only [List.mem_cons, List.not_mem_nil, or_false] at hp
  rcases hp with rfl | rfl | rfl <;> exact ⟨_, rfl, by decide⟩

/-- The clauses of VAL.CHAR: outside WS_SET and inside, first miss, a later miss, a hit. -/
theorem witness_val_char :
    isWs 0x42 = false ∧ isWs 0x20 = true ∧ ((valAt false false 0).val.bad = false ∧ (inv 0x20).hit = false) ∧
    (valAt true true 0x21).val.bad = true ∧ (inv 0x42).hit = true := by decide

/-- The clauses of VAL.END. -/
theorem witness_val_end :
    (valAt false true 0x20).val.seen = false ∧
    ((valAt true true 0x21).val.seen = true ∧ (valAt true true 0x21).val.bad = true) ∧
    ((valAt true false 0).val.seen = true ∧ (valAt true false 0).val.bad = false) := by decide

/-- A state with units that are not idle, and the idle one. -/
theorem witness_status :
    ((encAt 0b1111 4).Inv ∧ ∃ t, exec .status (encAt 0b1111 4) = .next t) ∧
    (State.reset.Inv ∧ ∃ t, exec .status State.reset = .next t) :=
  ⟨⟨by decide, _, rfl⟩, ⟨by decide, _, rfl⟩⟩

/-- For each unit a command, and two states that agree on that unit only. -/
theorem witness_commands_read :
    (∃ t1 t2, exec (.encByte 0xA5) (encAt 0b0001 1) = .next t1 ∧
      exec (.encByte 0xA5) { decAt 0 0 true 0x49 with enc := { acc := 0b0001, cnt := 1 } } = .next t2 ∧
      (encAt 0b0001 1).enc.Ok) ∧
    (∃ t1 t2, exec (.decChar 0x42) (decAt 0b11 2 false 0) = .next t1 ∧
      exec (.decChar 0x42) { encAt 0 3 with dec := { acc := 0b11, cnt := 2, err := false, errch := 0 } } = .next t2 ∧
      (decAt 0b11 2 false 0).dec.Ok) ∧
    (∃ t1 t2, exec .valEnd (valAt true false 0) = .next t1 ∧
      exec .valEnd { encAt 0 3 with val := { seen := true, bad := false, badch := 0 } } = .next t2) :=
  ⟨⟨_, _, rfl, rfl, by decide⟩, ⟨_, _, rfl, rfl, by decide⟩, ⟨_, _, rfl, rfl⟩⟩

/-- Three messages interleaved, from reset, and the three units. -/
theorem witness_interleaved :
    State.reset.Inv ∧ (∃ rs t, runCommands ([.encByte 0xFF, .decChar 0x49, .valChar 0x42, .encEnd].map encode)
      State.reset = .next (rs, t)) ∧
    CodecUnit.enc ≠ .utility ∧ CodecUnit.dec ≠ .utility ∧ CodecUnit.val ≠ .utility :=
  ⟨by decide, ⟨_, _, rfl⟩, by decide, by decide, by decide⟩

/-- Legal and illegal words that answer next; each kind of command of R215's last clause. -/
theorem witness_responses :
    (∃ t, runCommand 0xFF000000 State.reset = .next t) ∧
    (∃ t, runCommand 0x010000FF State.reset = .next t ∧ decode 0x010000FF = .ok (.encByte 0xFF)) ∧
    (∃ t, runCommand 0x21000020 State.reset = .next t ∧ decode 0x21000020 = .ok (.valChar 0x20)) ∧
    (∃ t, runCommand 0x13000000 State.reset = .next t ∧ decode 0x13000000 = .ok .decClear) ∧
    (∃ t, runCommand 0x23000000 State.reset = .next t ∧ decode 0x23000000 = .ok .valClear) ∧
    (∃ t, runCommand 0x32000000 State.reset = .next t ∧ decode 0x32000000 = .ok .status) :=
  ⟨⟨_, rfl⟩, ⟨_, rfl, rfl⟩, ⟨_, rfl, rfl⟩, ⟨_, rfl, rfl⟩, ⟨_, rfl, rfl⟩, ⟨_, rfl, rfl⟩⟩

/-- An offered command with no response waiting and with one that is taken; a legal and an illegal word. -/
theorem witness_offered_command :
    ((portAt [pushSample 0x010000FF]).port = pushSample 0x010000FF :: [] ∧
      (portAt [pushSample 0x010000FF]).rsp.valid = false ∧ decode 0x010000FF = .ok (.encByte 0xFF)) ∧
    ((waitingAt 0x04000042 [offerSample 0xFF000000]).rsp.valid = true ∧ (offerSample 0xFF000000).rspReady = true ∧
      (offerSample 0xFF000000).rst = false ∧ (offerSample 0xFF000000).cmdValid = true ∧
      decode 0xFF000000 = .error (.unassignedOpcode 0xFF)) :=
  ⟨⟨rfl, rfl, rfl⟩, ⟨rfl, rfl, rfl, rfl, rfl⟩⟩

/-- A reset edge that drops a response, and one at which it is taken. -/
theorem witness_reset_edge :
    (waitingAt 0x04000042 [resetSample]).port = resetSample :: [] ∧ resetSample.rst = true ∧
    ({ resetSample with rspReady := true } : PortSample).rst = true := by decide

/-- An edge that accepts nothing: nothing offered, or an untaken response in the way; taking and not taking. -/
theorem witness_edge_without_command :
    ((waitingAt 0x04000042 [takeSample]).port = takeSample :: [] ∧ takeSample.rst = false ∧
      takeSample.cmdValid = false ∧ takeSample.rspReady = true ∧ (waitingAt 0x04000042 [takeSample]).rsp.valid = true) ∧
    ((waitingAt 0x04000042 [pushSample 0x02000000]).rsp.valid = true ∧ (pushSample 0x02000000).rspReady = false) ∧
    ((portAt [takeSample]).rsp.valid = false) := by decide

theorem witness_idle_host : (encAt 0b101 3).port = [] := rfl

/-- A run with commands accepted, one held back and one taken, none with reset. -/
theorem witness_port_run :
    ∀ p ∈ (portAt [pushSample 0x010000FF, pushSample 0x02000000, offerSample 0x02000000, takeSample]).port.take 4,
      p.rst = false := by decide

theorem witness_step_keeps_invariants :
    (portAt [pushSample 0x010000FF]).Inv ∧ step (portAt [pushSample 0x010000FF]) = .next
      { State.reset with enc := { acc := 0b111, cnt := 3 }, rsp := { valid := true, data := 0x04000031 } } :=
  ⟨by decide, rfl⟩

/-- Idle units, which the message statements start from; an ENC with no pending bits; characters that hit. -/
theorem witness_idle_units :
    State.reset.enc = EncUnit.idle ∧ State.reset.dec = DecUnit.idle ∧ State.reset.val = ValUnit.idle ∧
    State.reset.enc.cnt = 0 ∧ (∀ c ∈ [(0x31 : CharCode)], (b32c.inv c).hit = true) :=
  ⟨rfl, rfl, rfl, rfl, List.forall_mem_singleton.2 (by decide)⟩

/-- "BIB": characters that hit before, then one that misses. -/
theorem witness_first_absent_character :
    State.reset.dec = DecUnit.idle ∧ (∀ x ∈ [(0x42 : CharCode)], (inv x).hit = true) ∧ (inv 0x49).hit = false :=
  ⟨rfl, List.forall_mem_singleton.2 (by decide), by decide⟩

/-- Parameters other than B32C's, and an idle state that meets the invariants. -/
theorem witness_other_parameters :
    ascii7.wf = true ∧ state7.Inv ∧ state7.enc = EncUnit.idle ∧ state7.dec = DecUnit.idle ∧ state7.val = ValUnit.idle ∧
    Codec.step ascii7 state7 = .next state7 :=
  ⟨by decide, by decide, rfl, rfl, rfl, rfl⟩

/-- The clauses of a CHAR operand at the boundary of CHAR_W = 7: 0x80 is illegal, 0x7F is legal and misses. -/
theorem witness_char_operand_boundary :
    2 ^ 7 ≤ (0x80 : BitVec 24).toNat ∧ (0x7F : BitVec 24).toNat < 2 ^ 7 ∧ state7.dec.err = false ∧
    (ascii7.inv 0x7F).hit = false := by decide

/-- A message of one byte leaves 3 bits pending. -/
theorem witness_last_symbol : 8 * [(0xFF : Byte)].length % 5 ≠ 0 := by decide

/-- The three verdicts, and both kinds of empty input (95_test_vectors.md 4.2). -/
theorem witness_validator_clauses :
    b32c.wf = true ∧ base32Validate b32c [0x42, 0x43, 0x44] = .valid ∧
    base32Validate b32c [0x42, 0x21, 0x43] = .invalidAlphabetCharacter 0x21 ∧
    base32Validate b32c [] = .emptyInput ∧ base32Validate b32c [0x20, 0x09] = .emptyInput := by decide

end Sys2Proof.Tests
end

section
/-! PROOFS. The inverse lookup (spec 10_state.md R24) and the state after reset (R40): O10 and O41. -/

namespace Sys2Proof

variable {cw : Nat}

/-- INV answers a hit with index i for the code of entry i and for no other code (R24). -/
theorem CodecParams.inv_eq_hit_iff {p : CodecParams cw} (hp : p.wf = true) (c : BitVec cw) (i : Symbol) :
    p.inv c = { hit := true, idx := i } ↔ (p.rom i).setWidth cw = c := by
  constructor
  · intro h
    have entry := CodecParams.rom_of_hit (p := p) (c := c) (by rw [h])
    rwa [h] at entry
  · rintro rfl
    exact CodecParams.inv_rom hp i

/-- A code that is no entry misses (R24). -/
theorem CodecParams.hit_eq_false_of_rom_ne {p : CodecParams cw} {c : BitVec cw}
    (h : ∀ i : Symbol, (p.rom i).setWidth cw ≠ c) : (p.inv c).hit = false :=
  Bool.eq_false_iff.mpr fun hit => h _ (CodecParams.rom_of_hit hit)

/-- A miss is the answer (0, 0) (R24). -/
theorem CodecParams.inv_eq_miss {p : CodecParams cw} {c : BitVec cw} (h : (p.inv c).hit = false) :
    p.inv c = { hit := false, idx := 0 } :=
  congrArg₂ Lookup.mk h (CodecParams.idx_of_miss h)

/-- Settles O10: a hit's index is the only one with that entry, as the ROM is injective, and a miss has index 0. -/
theorem inverseLookupIsExact : Obligations.InverseLookupIsExact := by
  intro cw p hp c
  refine ⟨fun i => ?_, fun absent => ?_⟩
  · exact CodecParams.inv_eq_hit_iff hp c i
  · exact CodecParams.inv_eq_miss (CodecParams.hit_eq_false_of_rom_ne absent)

end Sys2Proof

namespace Sys2Proof.Machine

/-- The response register's reset value is the word of an OK response with COUNT and DATA 0 (R40, R77). -/
theorem RspReg.empty_data : RspReg.empty.data = respWord .ok 0#2 0#24 := by decide

/-- Every unit is idle after reset (R40, R241). -/
theorem State.reset_allIdle : State.reset.AllIdle :=
  ⟨rfl, rfl, rfl⟩

/-- The state after reset meets the invariants (R20, R40). -/
theorem State.reset_inv : State.reset.Inv := by
  refine ⟨EncUnit.idle_ok, DecUnit.idle_ok, ValUnit.idle_ok, ?_⟩
  show ResponseOk RspReg.empty.data
  rw [RspReg.empty_data]
  exact responseOk_info .ok 0

/-- Settles O41: idle units and an empty response register are the registers' reset values, and they meet the invariants. -/
theorem resetIsIdleAndMeetsTheInvariants : Obligations.ResetIsIdleAndMeetsTheInvariants := by
  unfold Obligations.ResetIsIdleAndMeetsTheInvariants
  exact ⟨State.reset_allIdle, rfl, State.reset_inv, rfl, rfl, rfl⟩

end Sys2Proof.Machine
end

section
/-! PROOFS. The legal opcodes (spec 30_encoding.md R80, R81), illegal words (R76, 60_exceptions.md R213) and the response
word (R77): O4, O6 and O7. -/

namespace Sys2Proof

/-- The rows of R80 are all the opcodes. -/
theorem Opcode.mem_all (o : Opcode) : o ∈ Opcode.all := by
  cases o <;> decide

/-- The OPC column of R80, in its order, as numbers. -/
def Opcode.codes : List Nat :=
  Opcode.all.map (fun o => o.code.toNat)

/-- The eleven values of R80. -/
theorem Opcode.codes_eq :
    Opcode.codes = [0x01, 0x02, 0x03, 0x11, 0x12, 0x13, 0x21, 0x22, 0x23, 0x31, 0x32] := rfl

/-- An OPC is legal exactly when it stands in the OPC column (R80). -/
theorem Opcode.exists_code_eq_iff (b : BitVec 8) : (∃ o : Opcode, o.code = b) ↔ b.toNat ∈ Opcode.codes := by
  rw [Opcode.codes, List.mem_map]
  constructor
  · rintro ⟨o, rfl⟩
    exact ⟨o, o.mem_all, rfl⟩
  · rintro ⟨o, -, h⟩
    exact ⟨o, BitVec.eq_of_toNat_eq h⟩

/-- The illegal OPC values are the gaps between the runs of the OPC column (R81). -/
theorem Opcode.forall_code_ne_iff (b : BitVec 8) : (∀ o : Opcode, o.code ≠ b) ↔
    b.toNat = 0x00 ∨ (0x04 ≤ b.toNat ∧ b.toNat ≤ 0x10) ∨ (0x14 ≤ b.toNat ∧ b.toNat ≤ 0x20) ∨
    (0x24 ≤ b.toNat ∧ b.toNat ≤ 0x30) ∨ 0x33 ≤ b.toNat := by
  rw [← not_exists, Opcode.exists_code_eq_iff, Opcode.codes_eq]
  simp only [List.mem_cons, List.not_mem_nil, or_false]
  omega

/-- No row is found exactly for an OPC that no row has (R81). -/
theorem Opcode.ofCode?_eq_none_iff (b : BitVec 8) : Opcode.ofCode? b = none ↔ ∀ o : Opcode, o.code ≠ b := by
  constructor
  · exact Opcode.code_ne_of_ofCode?_none
  · intro h
    exact List.find?_eq_none.mpr fun o _ => by simpa using h o

/-- No row is found exactly for a number outside the OPC column (R80, R81). -/
theorem Opcode.isNone_ofCode?_ofNat {n : Nat} (h : n < 256) :
    (Opcode.ofCode? (BitVec.ofNat 8 n)).isNone = decide (n ∉ Opcode.codes) := by
  have number : (BitVec.ofNat 8 n).toNat = n := (BitVec.toNat_ofNat n 8).trans (Nat.mod_eq_of_lt h)
  rw [Bool.eq_iff_iff, Option.isNone_iff_eq_none, Opcode.ofCode?_eq_none_iff, ← not_exists, Opcode.exists_code_eq_iff,
    number, decide_eq_true_iff]

/-- Of the 256 numbers of an OPC, all but the eleven of the column are illegal (R81). -/
theorem Opcode.length_illegal :
    ((List.range 256).filter (fun n => (Opcode.ofCode? (BitVec.ofNat 8 n)).isNone)).length = 245 := by
  have outside : (List.range 256).filter (fun n => (Opcode.ofCode? (BitVec.ofNat 8 n)).isNone) =
      (List.range 256).diff Opcode.codes := by
    rw [List.nodup_range.sdiff_eq_filter]
    exact List.filter_congr fun n hn => Opcode.isNone_ofCode?_ofNat (List.mem_range.mp hn)
  have distinct : Opcode.codes.Nodup := by decide
  have bounded : ∀ n ∈ Opcode.codes, n < 256 := by decide
  have inside : Opcode.codes.Subperm (List.range 256) :=
    List.subperm_of_subset distinct fun n hn => List.mem_range.mpr (bounded n hn)
  have split : (Opcode.codes ++ (List.range 256).diff Opcode.codes).Perm (List.range 256) :=
    List.subperm_append_diff_self_of_count_le (List.subperm_ext_iff.mp inside)
  have total := split.length_eq
  have column : Opcode.codes.length = 11 := rfl
  rw [List.length_append, List.length_range, column] at total
  rw [outside]
  omega

/-- A word whose OPC no row has is illegal (R76). -/
theorem decode_of_code_ne {w : Word} (h : ∀ o : Opcode, o.code ≠ opcField w) :
    decode w = .error (.unassignedOpcode (opcField w)) := by
  simp [decode, (Opcode.ofCode?_eq_none_iff _).mpr h]

/-- A word with a reserved bit of its form set is illegal (R75, R76). -/
theorem decode_of_reserved {w : Word} {o : Opcode} (ho : o.code = opcField w)
    (h : 2 ^ o.form.fieldWidth ≤ (operandField w).toNat) : decode w = .error (.reservedBits (opcField w)) := by
  have fits : ¬ operandFits o.form (operandField w) = true := by
    rw [operandFits_iff]
    omega
  simp [decode, ← ho, fits]

end Sys2Proof

namespace Sys2Proof.Machine

/-- A word whose OPC no row has gets the illegal response (R76). -/
theorem runCommand_of_code_ne {w : Word} (h : ∀ o : Opcode, o.code ≠ opcField w) (s : State) :
    runCommand w s = .next (s.respondIllegal (opcField w)) :=
  runCommand_of_illegal (decode_of_code_ne h) s

/-- A word with a reserved bit of its form set gets the illegal response (R75, R76). -/
theorem runCommand_of_reserved {w : Word} {o : Opcode} (ho : o.code = opcField w)
    (h : 2 ^ o.form.fieldWidth ≤ (operandField w).toNat) (s : State) :
    runCommand w s = .next (s.respondIllegal (opcField w)) :=
  runCommand_of_illegal (decode_of_reserved ho h) s

/-- Settles O4: the legal values are the rows' codes, and the illegal ones the gaps between them; OPC 0 of the all-zero word
lies in the first gap. -/
theorem legalOpcodesAreTheElevenOfTheTable : Obligations.LegalOpcodesAreTheElevenOfTheTable := by
  refine ⟨Opcode.exists_code_eq_iff, Opcode.forall_code_ne_iff, Opcode.length_illegal, fun s => ?_⟩
  have unassigned : ∀ o : Opcode, o.code ≠ opcField 0 := (Opcode.forall_code_ne_iff _).mpr (.inl rfl)
  exact runCommand_of_code_ne unassigned s

/-- Settles O6: both kinds of illegal word end in `respondIllegal`, which writes the response register only. -/
theorem illegalWordChangesNothingAndEchoesOpc : Obligations.IllegalWordChangesNothingAndEchoesOpc := by
  intro w s illegal
  rcases illegal with unassigned | ⟨o, ho, reserved⟩
  · exact runCommand_of_code_ne unassigned s
  · exact runCommand_of_reserved ho reserved s

/-- Settles O7: the response word is an append of its fields, so each field counts with the power of two of its place. -/
theorem responseWordHoldsItsFields : Obligations.ResponseWordHoldsItsFields :=
  toNat_respWord

end Sys2Proof.Machine
end

section
/-! PROOFS. The encoder's commands (spec 40_encoder.md R101 to R103, R108): O13, O16, O17 and O18. -/

namespace Sys2Proof

/-- A command's operand lies in its form's field (R75). -/
theorem Instr.operand_fits (i : Instr) : operandFits i.opcode.form i.operand = true := by
  rw [operandFits_iff]
  cases i with
  | encByte b => exact (BitVec.toNat_setWidth_of_le (by decide)).trans_lt b.isLt
  | decChar c => exact (BitVec.toNat_setWidth_of_le (by decide)).trans_lt c.isLt
  | valChar c => exact (BitVec.toNat_setWidth_of_le (by decide)).trans_lt c.isLt
  | alphaRead j => exact (BitVec.toNat_setWidth_of_le (by decide)).trans_lt j.isLt
  | _ => decide

/-- A command is read back from its opcode and its operand (R75, R83). -/
theorem Instr.toInstr_operand (i : Instr) : i.opcode.toInstr i.operand = i := by
  cases i with
  | encByte b => exact congrArg Instr.encByte (BitVec.setWidth_setWidth_of_le b (by decide))
  | decChar c => exact congrArg Instr.decChar (BitVec.setWidth_setWidth_of_le c (by decide))
  | valChar c => exact congrArg Instr.valChar (BitVec.setWidth_setWidth_of_le c (by decide))
  | alphaRead j => exact congrArg Instr.alphaRead (BitVec.setWidth_setWidth_of_le j (by decide))
  | _ => rfl

/-- An encoded command decodes to the command (R83). -/
@[simp] theorem decode_encode (i : Instr) : decode (encode i) = .ok i := by
  simp [decode, i.operand_fits, i.toInstr_operand]

/-- The word of an opcode with a field as OPERAND is the sum of the two, OPC at its place (R74, R75). -/
theorem commandWord_zext24 (o : Opcode) {n : Nat} (v : BitVec n) (h : n ≤ 24) :
    commandWord o (zext24 v) = BitVec.ofNat 32 (o.code.toNat * 2 ^ 24) + v.setWidth 32 := by
  apply BitVec.eq_of_toNat_eq
  have field : (zext24 v).toNat = v.toNat := BitVec.toNat_setWidth_of_le h
  have extended : (v.setWidth 32).toNat = v.toNat := BitVec.toNat_setWidth_of_le (by omega)
  have hv := (zext24 v).isLt
  have hc := o.code.isLt
  rw [toNat_commandWord, BitVec.toNat_add, BitVec.toNat_ofNat, extended]
  omega

/-- The word of ENC.BYTE is `0x010000bb` (R101). -/
theorem encode_encByte (b : Byte) : encode (.encByte b) = 0x01000000 + b.setWidth 32 :=
  commandWord_zext24 .encByte b (by decide)

end Sys2Proof

namespace Sys2Proof.Codec

open Sys2Proof.Machine

variable {cw : Nat}

/-- Up to two output units come back from a response as they were packed (R78). -/
theorem outputUnits_respondUnits (s : State cw) {us : List Byte} (h : us.length ≤ 2) :
    outputUnits (s.respondUnits us).rsp.data = us := by
  match us, h with
  | [], _ => exact outputUnits_info 0
  | [u], _ => exact outputUnits_one u
  | [u, v], _ => exact outputUnits_two u v

/-- An OK response without data is the word 0 (R77). -/
theorem State.respond_ok_zero (s : State cw) :
    s.respond .ok 0 0 = { s with rsp := { valid := true, data := 0x00000000 } } := by
  have word : respWord .ok 0 0 = 0x00000000 := by decide
  rw [State.respond, word]

/-- ENC.BYTE with fewer than 2 bits pending emits one symbol and keeps 3 bits more than were pending (R101). -/
theorem encByte_one (p : CodecParams cw) {s : State cw} (b : Byte) (h : s.enc.cnt.toNat < 2) :
    encByte p b s = .next
      ((s.setEnc
        { acc := BitVec.ofNat 4 ((s.enc.acc.toNat * 2 ^ 8 + b.toNat) % 2 ^ (s.enc.cnt.toNat + 3))
          cnt := BitVec.ofNat 3 (s.enc.cnt.toNat + 3) }).respondUnits
        [p.rom (BitVec.ofNat 5 ((s.enc.acc.toNat * 2 ^ 8 + b.toNat) / 2 ^ (s.enc.cnt.toNat + 3)))]) := by
  rw [encByte_within p b (by omega), encExtract_one b h]
  rfl

/-- ENC.BYTE with 2 to 4 bits pending emits two symbols and keeps 2 bits fewer than were pending (R101). -/
theorem encByte_two (p : CodecParams cw) {s : State cw} (b : Byte) (h : 2 ≤ s.enc.cnt.toNat) (h4 : s.enc.cnt.toNat ≤ 4) :
    encByte p b s = .next
      ((s.setEnc
        { acc := BitVec.ofNat 4 ((s.enc.acc.toNat * 2 ^ 8 + b.toNat) % 2 ^ (s.enc.cnt.toNat - 2))
          cnt := BitVec.ofNat 3 (s.enc.cnt.toNat - 2) }).respondUnits
        [p.rom (BitVec.ofNat 5 ((s.enc.acc.toNat * 2 ^ 8 + b.toNat) / 2 ^ (s.enc.cnt.toNat + 3))),
          p.rom (BitVec.ofNat 5 ((s.enc.acc.toNat * 2 ^ 8 + b.toNat) / 2 ^ (s.enc.cnt.toNat - 2)))]) := by
  rw [encByte_within p b h4, encExtract_two b h h4]
  rfl

/-- What the extractor gives goes out as one or two units, each a ROM entry (R101, R108). -/
theorem emitSymbols_respondsRomUnits (p : CodecParams cw) (s : State cw) (r : EncStep) :
    ∃ (s1 : State cw) (is : List Symbol), is.length ≤ 2 ∧ s.emitSymbols p r = s1.respondUnits (is.map p.rom) := by
  obtain ⟨unit, first, _ | second⟩ := r
  · exact ⟨s.setEnc unit, [first], by simp, rfl⟩
  · exact ⟨s.setEnc unit, [first, second], by simp, rfl⟩

/-- ENC.BYTE responds with at most two units, each a ROM entry, in every state (R101, R108). -/
theorem encByte_respondsRomUnits (p : CodecParams cw) (b : Byte) (s : State cw) :
    ∃ (s1 : State cw) (is : List Symbol), is.length ≤ 2 ∧ encByte p b s = .next (s1.respondUnits (is.map p.rom)) := by
  rcases Nat.lt_or_ge 4 s.enc.cnt.toNat with outside | within
  · obtain ⟨s1, is, short, emitted⟩ := emitSymbols_respondsRomUnits p s.drawFree (encExtractOpen s.freeCount)
    exact ⟨s1, is, short, (encByte_outside p b outside).trans (congrArg Host.Outcome.next emitted)⟩
  · obtain ⟨s1, is, short, emitted⟩ := emitSymbols_respondsRomUnits p s (encExtract s.enc b)
    exact ⟨s1, is, short, (encByte_within p b within).trans (congrArg Host.Outcome.next emitted)⟩

/-- ENC.END responds with at most one unit, a ROM entry, in every state (R102, R108). -/
theorem encEnd_respondsRomUnits (p : CodecParams cw) (s : State cw) :
    ∃ (s1 : State cw) (is : List Symbol), is.length ≤ 1 ∧ encEnd p s = .next (s1.respondUnits (is.map p.rom)) := by
  by_cases empty : s.enc.cnt = 0
  · exact ⟨_, [], by decide, encEnd_empty p empty⟩
  · rcases Nat.lt_or_ge 4 s.enc.cnt.toNat with outside | within
    · exact ⟨_, [_], by simp, encEnd_outside p outside⟩
    · exact ⟨_, [_], by simp, encEnd_partial p empty within⟩

end Sys2Proof.Codec

namespace Sys2Proof.Machine

open Sys2Proof.Codec

/-- Settles O13: fewer than 10 bits with the byte behind them are fewer than 2 pending ones, and give one symbol; else two. -/
theorem encByteEmitsItsWholeSymbols : Obligations.EncByteEmitsItsWholeSymbols := by
  intro s b
  refine ⟨encode_encByte b ▸ decode_encode (.encByte b), fun ⟨within, _⟩ => ?_⟩
  have afterFirst : s.enc.cnt.toNat + 8 - 5 = s.enc.cnt.toNat + 3 := by omega
  have afterSecond : s.enc.cnt.toNat + 8 - 10 = s.enc.cnt.toNat - 2 := by omega
  simp only [afterFirst, afterSecond]
  constructor
  · intro one
    exact encByte_one b32c b (by omega)
  · intro two
    exact encByte_two b32c b (by omega) within

/-- Settles O16: ENC.END's symbol as a number is the pending bits times the power of two that fills 5 bits. -/
theorem encEndEmitsThePartialSymbol : Obligations.EncEndEmitsThePartialSymbol := by
  refine ⟨decode_encode .encEnd, fun s ⟨within, _⟩ => ⟨fun empty => ?_, fun pending => ?_⟩⟩
  · exact (encEnd_empty b32c empty).trans (congrArg Host.Outcome.next (State.respond_ok_zero _))
  · rw [← encPartial_eq_ofNat]
    exact encEnd_partial b32c pending within

/-- Settles O17: each CLEAR writes its unit's idle registers, which are the reset values, and responds OK with no data. -/
theorem clearPutsTheUnitAtReset : Obligations.ClearPutsTheUnitAtReset := by
  refine ⟨decode_encode .encClear, decode_encode .decClear, decode_encode .valClear, fun s => ⟨?_, ?_, ?_⟩⟩
  · exact congrArg Host.Outcome.next (State.respond_ok_zero (s.setEnc EncUnit.idle))
  · exact congrArg Host.Outcome.next (State.respond_ok_zero s.leaveDec)
  · exact congrArg Host.Outcome.next (State.respond_ok_zero (s.setVal ValUnit.idle))

/-- Settles O18: both commands respond with ROM entries in every state, and the units of a response are those it was given. -/
theorem encoderEmitsOnlyRomCodes : Obligations.EncoderEmitsOnlyRomCodes := by
  intro s t b ran u hu
  have responded : ∃ (s1 : State) (is : List Symbol), is.length ≤ 2 ∧ t = s1.respondUnits (is.map rom) := by
    rcases ran with byte | fin
    · obtain ⟨s1, is, short, answer⟩ := encByte_respondsRomUnits b32c b s
      exact ⟨s1, is, short, Host.Outcome.next.inj (byte.symm.trans answer)⟩
    · obtain ⟨s1, is, short, answer⟩ := encEnd_respondsRomUnits b32c s
      exact ⟨s1, is, by omega, Host.Outcome.next.inj (fin.symm.trans answer)⟩
  obtain ⟨s1, is, short, rfl⟩ := responded
  rw [outputUnits_respondUnits s1 (by simpa using short)] at hu
  obtain ⟨i, -, rfl⟩ := List.mem_map.mp hu
  exact ⟨i, rfl⟩

end Sys2Proof.Machine
end

section
/-! PROOFS. The length of an encoding (spec 40_encoder.md R105): O47. -/

namespace Sys2Proof.Codec

open Sys2Proof.Machine

variable {cw : Nat}

/-- ENC.BYTE loses no bit: 5 for each symbol it emits and those left pending are the pending ones and the byte's 8 (R105). -/
theorem encByte_conserves_bits (p : CodecParams cw) (b : Byte) {s : State cw} (h : s.enc.cnt.toNat ≤ 4) :
    ∃ t : State cw, encByte p b s = .next t ∧ t.enc.cnt.toNat ≤ 4 ∧
      5 * (outputUnits t.rsp.data).length + t.enc.cnt.toNat = s.enc.cnt.toNat + 8 := by
  rcases Nat.lt_or_ge s.enc.cnt.toNat 2 with one | two
  · refine ⟨_, encByte_one p b one, ?_⟩
    rw [outputUnits_respondUnits _ (by simp)]
    simp only [State.respondUnits_enc, State.setEnc_enc, BitVec.toNat_ofNat, List.length_singleton]
    omega
  · refine ⟨_, encByte_two p b two h, ?_⟩
    rw [outputUnits_respondUnits _ (by simp)]
    simp only [State.respondUnits_enc, State.setEnc_enc, BitVec.toNat_ofNat, List.length_cons, List.length_nil]
    omega

/-- ENC.END emits one symbol when bits are pending, else none (R102, R105). -/
theorem encEnd_emits_ceil (p : CodecParams cw) {s : State cw} (h : s.enc.cnt.toNat ≤ 4) :
    ∃ t : State cw, encEnd p s = .next t ∧ (outputUnits t.rsp.data).length = (s.enc.cnt.toNat + 4) / 5 := by
  by_cases empty : s.enc.cnt = 0
  · refine ⟨_, encEnd_empty p empty, ?_⟩
    rw [outputUnits_respondUnits _ (by simp), empty]
    rfl
  · have pending : s.enc.cnt.toNat ≠ 0 := fun e => empty (BitVec.eq_of_toNat_eq e)
    refine ⟨_, encEnd_partial p empty h, ?_⟩
    rw [outputUnits_respondUnits _ (by simp), List.length_singleton]
    omega

end Sys2Proof.Codec

namespace Sys2Proof.Machine

open Sys2Proof.Codec

/-- An encoded command runs as the command (R83). -/
theorem runCommand_encode (i : Instr) (s : State) : runCommand (encode i) s = exec i s :=
  runCommand_of_decode (decode_encode i) s

/-- The host's encoding is read off the responses of its message's run (R104). -/
theorem hostEncode_of_run {bs : List Byte} {s t : State} {rs : List Word}
    (h : runCommands ((encodeMessage bs).map encode) s = .next (rs, t)) :
    hostEncode bs s = .next (readEncoding rs, t) := by
  rw [runCommands] at h
  rw [hostEncode, runMessage, h]

/-- A message from an ENC with at most 4 bits pending emits the symbols of all its bits, the pending ones included (R105). -/
theorem runCommands_encodeMessage_length (bs : List Byte) (s : State) (h : s.enc.cnt.toNat ≤ 4) :
    ∃ (rs : List Word) (t : State), runCommands ((encodeMessage bs).map encode) s = .next (rs, t) ∧
      (readEncoding rs).length = (8 * bs.length + s.enc.cnt.toNat + 4) / 5 := by
  induction bs generalizing s with
  | nil =>
    obtain ⟨t, ran, emitted⟩ := encEnd_emits_ceil b32c h
    refine ⟨_, t, runCommands_cons ((runCommand_encode _ s).trans ran) (runCommands_nil t), ?_⟩
    simp [readEncoding, emitted]
  | cons b bs ih =>
    obtain ⟨s1, ran, within, bits⟩ := encByte_conserves_bits b32c b h
    obtain ⟨rs, t, rest, emitted⟩ := ih s1 within
    refine ⟨_, t, runCommands_cons ((runCommand_encode _ s).trans ran) rest, ?_⟩
    simp only [readEncoding, List.flatMap_cons, List.length_append, List.length_cons] at emitted ⊢
    omega

/-- Settles O47: an idle ENC has no pending bit, so the symbols of the message are those of its 8n bits. -/
theorem encodingHasCeilEightFifthsSymbols : Obligations.EncodingHasCeilEightFifthsSymbols := by
  intro bs s idle
  have noBits : s.enc.cnt.toNat = 0 := by rw [idle]; rfl
  obtain ⟨rs, t, ran, emitted⟩ := runCommands_encodeMessage_length bs s (by omega)
  refine ⟨readEncoding rs, t, hostEncode_of_run ran, ?_⟩
  rw [emitted, noBits, Nat.add_zero]

end Sys2Proof.Machine
end

section
/-! PROOFS. The round trip over any parameters (spec 41_decoder.md R138): O51. The reference functions keep the bits they have
emitted, so a decoder that has read all but the last k bits of the encoder's number a holds the number a / 2^k. -/

namespace Sys2Proof

variable {cw : Nat}

/-- The number above bit k is the number above bit k + 5 with the slice between them behind it. -/
theorem div_two_pow_mul_add_slice (a k : Nat) :
    a / 2 ^ (k + 5) * 2 ^ 5 + (BitVec.ofNat 5 (a / 2 ^ k)).toNat = a / 2 ^ k := by
  rw [BitVec.toNat_ofNat, Nat.pow_add, ← Nat.div_div_eq_div_mul, Nat.div_add_mod']

/-- The entry of the next 5 bits of a, with m < 3 bits pending: no byte (R130). -/
theorem decodeLoop_rom_quiet {p : CodecParams cw} (hp : p.wf = true) (us : List Byte) (a k : Nat) {m m1 : Nat}
    (hm : m < 3) (hm1 : m + 5 = m1) :
    decodeLoop p (asChars (p.rom (BitVec.ofNat 5 (a / 2 ^ k)) :: us)) (a / 2 ^ (k + 5)) m =
      decodeLoop p (asChars us) (a / 2 ^ k) m1 := by
  have found := CodecParams.inv_rom hp (BitVec.ofNat 5 (a / 2 ^ k))
  rw [asChars, List.map_cons, decodeLoop_cons_quiet _ _ _ (by rw [found]) hm, found, div_two_pow_mul_add_slice, hm1]
  rfl

/-- The entry of the next 5 bits of a, with m1 + 3 bits pending: the byte of a above bit j = k + m1 (R130). -/
theorem decodeLoop_rom_emits {p : CodecParams cw} (hp : p.wf = true) (us : List Byte) (a k : Nat) {m m1 j : Nat}
    (hm : m = m1 + 3) (hj : k + m1 = j) :
    decodeLoop p (asChars (p.rom (BitVec.ofNat 5 (a / 2 ^ k)) :: us)) (a / 2 ^ (k + 5)) m =
      (decodeLoop p (asChars us) (a / 2 ^ k) m1).cons (BitVec.ofNat 8 (a / 2 ^ j)) := by
  subst hm hj
  have found := CodecParams.inv_rom hp (BitVec.ofNat 5 (a / 2 ^ k))
  rw [asChars, List.map_cons, decodeLoop_cons_emits _ _ _ (by rw [found]) (Nat.le_add_left 3 m1), found,
    div_two_pow_mul_add_slice, Nat.add_sub_cancel, Nat.div_div_eq_div_mul, ← Nat.pow_add]
  rfl

/-- The byte that the decoder has not emitted yet while n bits of the encoder's number are pending: its last one, or none. -/
def unfinishedByte (acc n : Nat) : List Byte :=
  if n = 0 then [] else [BitVec.ofNat 8 acc]

@[simp] theorem unfinishedByte_zero (acc : Nat) : unfinishedByte acc 0 = [] := rfl

@[simp] theorem unfinishedByte_succ (acc n : Nat) : unfinishedByte acc (n + 1) = [BitVec.ofNat 8 acc] := rfl

/-- With n bits pending in the encoder and all emitted symbols read, the decoder has `(8 - n) % 8` bits pending. At the end of
the message the partial symbol completes the unfinished byte (R100, R138). -/
theorem decodeLoop_encodeLoop_nil {p : CodecParams cw} (hp : p.wf = true) (acc : Nat) {n : Nat} (hn : n ≤ 4) :
    decodeLoop p (asChars (encodeLoop p [] acc n)) (acc / 2 ^ n) ((8 - n) % 8) = .ok (unfinishedByte acc n) := by
  rw [encodeLoop_nil]
  match n, hn with
  | 0, _ => rfl
  | n + 1, hn =>
    have padded : acc * 2 ^ (5 - (n + 1)) = acc * 2 ^ (4 - n) / 2 ^ 0 := by
      rw [pow_zero, Nat.div_one, Nat.add_comm n 1, Nat.sub_add_eq]
    have above : acc / 2 ^ (n + 1) = acc * 2 ^ (4 - n) / 2 ^ (0 + 5) := by
      rw [show 0 + 5 = n + 1 + (4 - n) by omega, Nat.pow_add _ (n + 1), Nat.mul_div_mul_right _ _ (Nat.two_pow_pos _)]
    rw [if_pos n.succ_pos, padded, above,
      decodeLoop_rom_emits hp [] _ 0 (m1 := 4 - n) (by omega) (Nat.zero_add _), Nat.mul_div_cancel _ (Nat.two_pow_pos _)]
    rfl

/-- A decoder that has read all emitted symbols decodes the rest of the encoding to the unfinished byte and the bytes that the
encoder has still to read (R138). -/
theorem decodeLoop_encodeLoop {p : CodecParams cw} (hp : p.wf = true) (bs : List Byte) (acc : Nat) {n : Nat} (hn : n ≤ 4) :
    decodeLoop p (asChars (encodeLoop p bs acc n)) (acc / 2 ^ n) ((8 - n) % 8) = .ok (unfinishedByte acc n ++ bs) := by
  induction bs generalizing acc n with
  | nil => rw [decodeLoop_encodeLoop_nil hp acc hn, List.append_nil]
  | cons b bs ih =>
    have byte := b.isLt
    have older : (acc * 2 ^ 8 + b.toNat) / 2 ^ 8 = acc := by omega
    have newest : BitVec.ofNat 8 (acc * 2 ^ 8 + b.toNat) = b := by
      apply BitVec.eq_of_toNat_eq
      rw [BitVec.toNat_ofNat]
      omega
    have above : acc / 2 ^ n = (acc * 2 ^ 8 + b.toNat) / 2 ^ (n + 3 + 5) := by
      rw [show n + 3 + 5 = 8 + n by omega, Nat.pow_add, ← Nat.div_div_eq_div_mul, older]
    rw [above]
    match n, hn with
    | 0, _ =>
      rw [encodeLoop_cons_one p b bs acc 0 (by decide), decodeLoop_rom_quiet hp _ _ _ (m1 := 5) (by decide) rfl,
        ih _ (n := 3) (by decide), unfinishedByte_succ, newest]
      rfl
    | 1, _ =>
      rw [encodeLoop_cons_one p b bs acc 1 (by decide), decodeLoop_rom_emits hp _ _ _ (m1 := 4) (j := 8) rfl rfl,
        ih _ (n := 4) (by decide), unfinishedByte_succ, newest, older]
      rfl
    | 2, _ =>
      rw [encodeLoop_cons_two p b bs acc 2 (by decide) (by decide),
        decodeLoop_rom_emits hp _ _ _ (m1 := 3) (j := 8) rfl rfl,
        decodeLoop_rom_emits hp _ _ 0 (m1 := 0) (j := 0) rfl rfl,
        ih _ (n := 0) (by decide), older, pow_zero, Nat.div_one, newest]
      rfl
    | n + 3, hn =>
      rw [encodeLoop_cons_two p b bs acc (n + 3) (by omega) hn,
        decodeLoop_rom_emits hp _ _ _ (m1 := 2 - n) (j := 8) (by omega) (by omega),
        show n + 3 - 2 = n + 1 from rfl, show n + 3 + 3 = n + 1 + 5 from rfl,
        decodeLoop_rom_quiet hp _ _ (n + 1) (m1 := (8 - (n + 1)) % 8) (by omega) (by omega),
        ih _ (n := n + 1) (by omega), unfinishedByte_succ, newest, older]
      rfl

/-- Settles O51: at the start nothing is emitted, read or pending, and no byte is unfinished. -/
theorem decodingAnEncodingGivesTheBytesBack : Obligations.DecodingAnEncodingGivesTheBytesBack := by
  intro cw p hp bs
  exact decodeLoop_encodeLoop hp bs 0 (Nat.zero_le 4)

end Sys2Proof
end

section
/-! PROOFS. The decoder's commands (spec 41_decoder.md R131, R132): O19 and O22. -/

namespace Sys2Proof

/-- The word of DEC.CHAR is `0x11cccccc` (R131). -/
theorem encode_decChar (c : CharCode) : encode (.decChar c) = 0x11000000 + c.setWidth 32 :=
  commandWord_zext24 .decChar c (by decide)

end Sys2Proof

namespace Sys2Proof.Codec

open Sys2Proof.Machine

variable {cw : Nat}

/-- The ABORTED response is the word `0x50000000` (R77, R214). -/
theorem State.respond_aborted (s : State cw) :
    s.respond .aborted 0 0 = { s with rsp := { valid := true, data := 0x50000000 } } := by
  have word : respWord .aborted 0 0 = 0x50000000 := by decide
  rw [State.respond, word]

/-- A hit with fewer than 3 bits pending emits nothing; DEC_ERR and DEC_ERRCH stay 0 (R131, R31). -/
theorem decChar_quiet {p : CodecParams cw} {s : State cw} {c : BitVec cw} (clear : s.dec.err = false)
    (hit : (p.inv c).hit = true) (ok : s.dec.Ok) (hn : s.dec.cnt.toNat < 3) :
    decChar p c s = .next
      ((s.setDec
        { acc := BitVec.ofNat 7 (s.dec.acc.toNat * 2 ^ 5 + (p.inv c).idx.toNat)
          cnt := BitVec.ofNat 3 (s.dec.cnt.toNat + 5)
          err := false
          errch := 0 }).respondUnits []) := by
  obtain ⟨fits, -, noChar⟩ := ok
  rw [decChar_hit clear hit, foldSymbol_quiet _ hn fits]
  simp only [clear, noChar clear]

/-- A hit with at least 3 bits pending emits a byte; DEC_ERR and DEC_ERRCH stay 0 (R131, R31). -/
theorem decChar_emits {p : CodecParams cw} {s : State cw} {c : BitVec cw} (clear : s.dec.err = false)
    (hit : (p.inv c).hit = true) (ok : s.dec.Ok) (hn : 3 ≤ s.dec.cnt.toNat) :
    decChar p c s = .next
      ((s.setDec
        { acc := BitVec.ofNat 7 ((s.dec.acc.toNat * 2 ^ 5 + (p.inv c).idx.toNat) % 2 ^ (s.dec.cnt.toNat - 3))
          cnt := BitVec.ofNat 3 (s.dec.cnt.toNat - 3)
          err := false
          errch := 0 }).respondUnits
        [BitVec.ofNat 8 ((s.dec.acc.toNat * 2 ^ 5 + (p.inv c).idx.toNat) / 2 ^ (s.dec.cnt.toNat - 3))]) := by
  obtain ⟨-, -, noChar⟩ := ok
  rw [decChar_hit clear hit, foldSymbol_emits _ hn]
  simp only [clear, noChar clear]

/-- DEC.END in sticky error repeats the verdict (R132). -/
theorem decEnd_sticky {s : State cw} (h : s.dec.err = true) :
    decEnd s = .next (s.leaveDec.respond .invalidCharacter 0 (s.dec.errch.setWidth 24)) :=
  if_pos h

/-- DEC.END without sticky error reports the leftover bits (R132). -/
theorem decEnd_ok {s : State cw} (h : s.dec.err = false) :
    decEnd s = .next (s.leaveDec.respond .ok 0 (leftoverInfo s.dec)) :=
  if_neg (Bool.eq_false_iff.mp h)

/-- The leftover report as the word of its number (R132). -/
theorem leftoverInfo_eq_ofNat (d : DecUnit cw) :
    leftoverInfo d = BitVec.ofNat 24 (d.acc.toNat * 2 ^ 8 + d.cnt.toNat) := by
  rw [← toNat_leftoverInfo, BitVec.ofNat_toNat, BitVec.setWidth_eq]

end Sys2Proof.Codec

namespace Sys2Proof.Machine

open Sys2Proof.Codec

/-- Settles O19: fewer than 8 bits with the character's 5 behind them are fewer than 3 pending ones, and give no byte. -/
theorem decCharFoldsDetectsOrAborts : Obligations.DecCharFoldsDetectsOrAborts := by
  intro s c
  refine ⟨encode_decChar c ▸ decode_encode (.decChar c), fun sticky => ?_, fun clear miss => ?_,
    fun clear hit ok => ⟨fun quiet => ?_, fun full => ?_⟩⟩
  · exact (decChar_aborted b32c c sticky).trans (congrArg Host.Outcome.next (State.respond_aborted s))
  · exact decChar_miss clear miss
  · exact (decChar_quiet clear hit ok (by omega)).trans (congrArg Host.Outcome.next (State.respond_ok_zero _))
  · rw [show s.dec.cnt.toNat + 5 - 8 = s.dec.cnt.toNat - 3 by omega]
    exact decChar_emits clear hit ok (by omega)

/-- Settles O22: both verdicts leave DEC idle, which is its four registers at 0. -/
theorem decEndGivesTheVerdict : Obligations.DecEndGivesTheVerdict := by
  refine ⟨decode_encode .decEnd, fun s => ⟨fun sticky => ?_, fun clear => ?_⟩⟩
  · exact decEnd_sticky sticky
  · rw [← leftoverInfo_eq_ofNat]
    exact decEnd_ok clear

end Sys2Proof.Machine
end

section
/-! PROOFS. A decode message with an absent character (spec 41_decoder.md R139): O54. -/

namespace Sys2Proof.Codec

open Sys2Proof.Machine

variable {cw : Nat}

/-- The fold of a hit does not touch DEC_ERR (R131). -/
theorem foldSymbol_err (s : State cw) (v : Symbol) : (s.foldSymbol v).dec.err = s.dec.err := by
  rcases Nat.lt_or_ge s.dec.cnt.toNat 3 with quiet | full
  · rcases Nat.lt_or_ge s.dec.acc.toNat (2 ^ s.dec.cnt.toNat) with fits | stray
    · rw [foldSymbol_quiet v quiet fits, State.respondUnits_dec, State.setDec_dec]
    · rw [foldSymbol_outside v quiet stray, State.respondUnits_dec, State.setDec_dec]
  · rw [foldSymbol_emits v full, State.respondUnits_dec, State.setDec_dec]

/-- A message whose last response has status INVALID_CHARACTER fails with that response's character (R134). -/
theorem readDecoding_invalidCharacter (rs : List Word) (n : BitVec 2) (c : CharCode) :
    readDecoding (rs ++ [respWord .invalidCharacter n (c.setWidth 24)]) = .invalidCharacter c := by
  simp [readDecoding]

end Sys2Proof.Codec

namespace Sys2Proof.Machine

open Sys2Proof.Codec

/-- The host's decoding is read off the responses of its message's run (R134). -/
theorem hostDecode_of_run {cs : List CharCode} {s t : State} {rs : List Word}
    (h : runCommands ((decodeMessage cs).map encode) s = .next (rs, t)) :
    hostDecode cs s = .next (readDecoding rs, t) := by
  rw [runCommands] at h
  rw [hostDecode, runMessage, h]

/-- The words of a decode message's characters. -/
def charWords (cs : List CharCode) : List Word :=
  cs.map (fun c => encode (.decChar c))

theorem charWords_append (cs ds : List CharCode) : charWords (cs ++ ds) = charWords cs ++ charWords ds :=
  List.map_append

theorem decodeMessage_words (cs : List CharCode) :
    (decodeMessage cs).map encode = charWords cs ++ [encode .decEnd] := by
  simp [decodeMessage, charWords]

/-- Characters of the alphabet do not enter the sticky error (R131). -/
theorem runCommands_hits {cs : List CharCode} (hits : ∀ c ∈ cs, (inv c).hit = true) {s : State} (clear : s.dec.err = false) :
    ∃ (rs : List Word) (t : State), runCommands (charWords cs) s = .next (rs, t) ∧ t.dec.err = false := by
  induction cs generalizing s with
  | nil => exact ⟨[], s, rfl, clear⟩
  | cons c cs ih =>
    obtain ⟨hit, rest⟩ := List.forall_mem_cons.mp hits
    obtain ⟨rs, t, ran, still⟩ := ih rest ((foldSymbol_err s (inv c).idx).trans clear)
    exact ⟨_, t, runCommands_cons ((runCommand_encode _ s).trans (decChar_hit clear hit)) ran, still⟩

/-- In sticky error every character is aborted, and no unit's register changes (R139, R214). -/
theorem runCommands_sticky (cs : List CharCode) {s : State} (sticky : s.dec.err = true) :
    ∃ t : State, runCommands (charWords cs) s = .next (cs.map (fun _ => 0x50000000), t) ∧
      t.enc = s.enc ∧ t.dec = s.dec ∧ t.val = s.val := by
  induction cs generalizing s with
  | nil => exact ⟨s, rfl, rfl, rfl, rfl⟩
  | cons c cs ih =>
    have aborted := (runCommand_encode (.decChar c) s).trans (decChar_aborted b32c c sticky)
    rw [State.respond_aborted] at aborted
    obtain ⟨t, ran, enc, dec, val⟩ := ih (s := { s with rsp := { valid := true, data := 0x50000000 } }) sticky
    exact ⟨t, runCommands_cons aborted ran, enc, dec, val⟩

/-- A message's characters up to its first absent one end in the sticky error with that character (R131, R139). -/
theorem runCommands_first_miss {before : List CharCode} {c : CharCode} (hits : ∀ x ∈ before, (inv x).hit = true)
    (miss : (inv c).hit = false) {s : State} (clear : s.dec.err = false) :
    ∃ (rs : List Word) (t : State), runCommands (charWords (before ++ [c])) s = .next (rs, t) ∧
      t.dec = { acc := 0, cnt := 0, err := true, errch := c } := by
  obtain ⟨rs, s1, ran, still⟩ := runCommands_hits hits clear
  have entered := (runCommand_encode (.decChar c) s1).trans (decChar_miss still miss)
  have chars := runCommands_append ran (runCommands_cons entered (runCommands_nil _))
  exact ⟨_, s1.enterDecError c, charWords_append before [c] ▸ chars, rfl⟩

/-- Settles O54: the first absent character is latched, the later ones are aborted, and DEC.END reports the latched one. -/
theorem decodeReportsTheFirstAbsentCharacter : Obligations.DecodeReportsTheFirstAbsentCharacter := by
  intro before after c s idle hits miss
  have clear : s.dec.err = false := by rw [idle]; rfl
  obtain ⟨rs1, t1, ran1, latched⟩ := runCommands_first_miss hits miss clear
  obtain ⟨t2, ran2, enc, dec, val⟩ := runCommands_sticky after (s := t1) (by rw [latched])
  refine ⟨?_, rs1, _, t1, t2, ran1, ran2, enc, dec, val⟩
  have ended := (runCommand_encode .decEnd t2).trans (decEnd_sticky (by rw [dec, latched]))
  have message := runCommands_append (runCommands_append ran1 ran2) (runCommands_cons ended (runCommands_nil _))
  rw [← charWords_append, List.append_assoc, List.singleton_append, ← decodeMessage_words] at message
  have decoded := hostDecode_of_run message
  rw [State.respond_rsp, dec, latched, readDecoding_invalidCharacter] at decoded
  exact ⟨_, decoded, rfl⟩

end Sys2Proof.Machine
end

section
/-! PROOFS. The validator's commands (spec 42_validator.md R162, R163): O25 and O26. -/

namespace Sys2Proof

/-- The word of VAL.CHAR is `0x21cccccc` (R162). -/
theorem encode_valChar (c : CharCode) : encode (.valChar c) = 0x21000000 + c.setWidth 32 :=
  commandWord_zext24 .valChar c (by decide)

end Sys2Proof

namespace Sys2Proof.Codec

open Sys2Proof.Machine

variable {cw : Nat}

/-- A character outside WS_SET sets VAL_SEEN (R162). -/
theorem scanChar_seen_of_not_ws {p : CodecParams cw} {c : BitVec cw} (h : p.isWs c = false) (v : ValUnit cw) :
    (scanChar p v c).seen = true := by
  simp [scanChar, h]

/-- A whitespace character leaves VAL_SEEN (R162). -/
theorem scanChar_seen_of_ws {p : CodecParams cw} {c : BitVec cw} (h : p.isWs c = true) (v : ValUnit cw) :
    (scanChar p v c).seen = v.seen := by
  simp [scanChar, h]

/-- The first miss sets VAL_BAD and is the character kept (R162). -/
theorem scanChar_bad_of_first_miss {p : CodecParams cw} {v : ValUnit cw} {c : BitVec cw} (first : v.bad = false)
    (miss : (p.inv c).hit = false) : (scanChar p v c).bad = true ∧ (scanChar p v c).badch = c := by
  simp [scanChar, first, miss]

/-- After the first miss, and at a hit, VAL_BAD and VAL_BADCH stay (R162). -/
theorem scanChar_bad_of_bad_or_hit {p : CodecParams cw} {v : ValUnit cw} {c : BitVec cw}
    (h : v.bad = true ∨ (p.inv c).hit = true) : (scanChar p v c).bad = v.bad ∧ (scanChar p v c).badch = v.badch := by
  rcases h with bad | hit
  · simp [scanChar, bad]
  · simp [scanChar, hit]

/-- VAL.CHAR writes VAL as `scanChar` gives it and responds OK with no data (R162). -/
theorem valChar_scans (p : CodecParams cw) (c : BitVec cw) (s : State cw) :
    valChar p c s = .next { s with val := scanChar p s.val c, rsp := { valid := true, data := 0x00000000 } } :=
  congrArg Host.Outcome.next (State.respond_ok_zero (s.setVal (scanChar p s.val c)))

/-- The EMPTY_INPUT response is the word `0x20000000` (R77, R163). -/
theorem State.respond_emptyInput (s : State cw) :
    s.respond .emptyInput 0 0 = { s with rsp := { valid := true, data := 0x20000000 } } := by
  have word : respWord .emptyInput 0 0 = 0x20000000 := by decide
  rw [State.respond, word]

/-- VAL.END after nothing but whitespace gives EMPTY_INPUT (R163). -/
theorem valEnd_empty {s : State cw} (unseen : s.val.seen = false) :
    valEnd s = .next ((s.setVal ValUnit.idle).respond .emptyInput 0 0) := by
  simp [valEnd, verdictStatus, verdictInfo, unseen]

/-- VAL.END of a string with content gives its first bad character (R163). -/
theorem valEnd_bad {s : State cw} (seen : s.val.seen = true) (bad : s.val.bad = true) :
    valEnd s =
      .next ((s.setVal ValUnit.idle).respond .invalidAlphabetCharacter 0 (s.val.badch.setWidth 24)) := by
  simp [valEnd, verdictStatus, verdictInfo, seen, bad]

/-- VAL.END of a string with content and no bad character gives OK (R163). -/
theorem valEnd_ok {s : State cw} (seen : s.val.seen = true) (good : s.val.bad = false) :
    valEnd s = .next ((s.setVal ValUnit.idle).respond .ok 0 0) := by
  simp [valEnd, verdictStatus, verdictInfo, seen, good]

end Sys2Proof.Codec

namespace Sys2Proof.Machine

open Sys2Proof.Codec

/-- Settles O25: the new VAL registers are `scanChar`'s, whose flags are set by WS_SET and by the first miss. -/
theorem valCharRecordsTheCharacter : Obligations.ValCharRecordsTheCharacter := by
  intro s c
  exact ⟨encode_valChar c ▸ decode_encode (.valChar c), _, valChar_scans b32c c s, rfl,
    fun outside => scanChar_seen_of_not_ws outside s.val, fun whitespace => scanChar_seen_of_ws whitespace s.val,
    scanChar_bad_of_first_miss, scanChar_bad_of_bad_or_hit⟩

/-- Settles O26: all three verdicts leave VAL idle, which is its registers at 0. -/
theorem valEndGivesTheVerdict : Obligations.ValEndGivesTheVerdict := by
  refine ⟨decode_encode .valEnd, fun s => ⟨fun unseen => ?_, fun seen bad => ?_, fun seen good => ?_⟩⟩
  · exact (valEnd_empty unseen).trans (congrArg Host.Outcome.next (State.respond_emptyInput _))
  · exact valEnd_bad seen bad
  · exact (valEnd_ok seen good).trans (congrArg Host.Outcome.next (State.respond_ok_zero _))

end Sys2Proof.Machine
end

section
/-! PROOFS. The utility commands (spec 43_utility.md R190, R191): O27 and O28. -/

namespace Sys2Proof

/-- The word of ALPHA.READ is `0x310000ii` (R190). -/
theorem encode_alphaRead (i : Symbol) : encode (.alphaRead i) = 0x31000000 + i.setWidth 32 :=
  commandWord_zext24 .alphaRead i (by decide)

end Sys2Proof

namespace Sys2Proof.Codec

open Sys2Proof.Machine

variable {cw : Nat}

/-- ALPHA.READ writes the response register only: OK, one unit, the ROM entry in DATA's low byte (R190). -/
theorem alphaRead_responds (p : CodecParams cw) (i : Symbol) (s : State cw) :
    alphaRead p i s = .next
      { s with rsp := { valid := true, data := respWord .ok 1 ((p.rom i).setWidth 24) } } := rfl

/-- STATUS's DATA is the sum of its fields, each at its place (R191). -/
theorem statusInfo_eq_ofNat (s : State cw) :
    statusInfo s = BitVec.ofNat 24 (s.enc.cnt.toNat + 2 ^ 4 * s.dec.cnt.toNat + 2 ^ 7 * s.dec.err.toNat +
      2 ^ 8 * s.val.seen.toNat + 2 ^ 9 * s.val.bad.toNat) := by
  rw [← toNat_statusInfo, BitVec.ofNat_toNat, BitVec.setWidth_eq]

/-- STATUS writes the response register only: OK, no unit, the snapshot in DATA (R191). -/
theorem status_responds (s : State cw) :
    status s = .next { s with rsp := { valid := true, data := respWord .ok 0 (statusInfo s) } } := rfl

end Sys2Proof.Codec

namespace Sys2Proof.Machine

open Sys2Proof.Codec

/-- Settles O27: the word is the encoding of ALPHA.READ, whose response is B32C's ROM entry as the one output unit. -/
theorem alphaReadReturnsTheRomEntry : Obligations.AlphaReadReturnsTheRomEntry := by
  intro s i
  exact ⟨encode_alphaRead i ▸ decode_encode (.alphaRead i), alphaRead_responds b32c i s⟩

/-- Settles O28: STATUS responds with the snapshot of counts and flags, which as a number is the sum of its fields. -/
theorem statusReportsCountsAndFlags : Obligations.StatusReportsCountsAndFlags := by
  refine ⟨decode_encode .status, fun s => ?_⟩
  rw [← statusInfo_eq_ofNat]
  exact status_responds s

end Sys2Proof.Machine
end

section
/-! PROOFS. The decoder's sticky error (spec 60_exceptions.md R214, R218): O23 and O24. -/

namespace Sys2Proof.Codec

open Sys2Proof.Machine

variable {cw : Nat}

/-- ENC.BYTE leaves DEC as it was, in every state (R42). -/
theorem encByte_keeps_dec (p : CodecParams cw) (b : Byte) (s : State cw) :
    ∃ t : State cw, encByte p b s = .next t ∧ t.dec = s.dec := by
  rcases Nat.lt_or_ge 4 s.enc.cnt.toNat with outside | within
  · exact ⟨_, encByte_outside p b outside, rfl⟩
  · exact ⟨_, encByte_within p b within, rfl⟩

/-- ENC.END leaves DEC as it was, in every state (R42). -/
theorem encEnd_keeps_dec (p : CodecParams cw) (s : State cw) :
    ∃ t : State cw, encEnd p s = .next t ∧ t.dec = s.dec := by
  by_cases empty : s.enc.cnt = 0
  · exact ⟨_, encEnd_empty p empty, rfl⟩
  · rcases Nat.lt_or_ge 4 s.enc.cnt.toNat with outside | within
    · exact ⟨_, encEnd_outside p outside, rfl⟩
    · exact ⟨_, encEnd_partial p empty within, rfl⟩

end Sys2Proof.Codec

namespace Sys2Proof.Machine

open Sys2Proof.Codec

/-- A command of another unit leaves DEC as it was (R42). -/
theorem exec_keeps_dec {i : Instr} (other : i.codecUnit ≠ .dec) (s : State) :
    ∃ t : State, exec i s = .next t ∧ t.dec = s.dec := by
  cases i with
  | encByte b => exact encByte_keeps_dec b32c b s
  | encEnd => exact encEnd_keeps_dec b32c s
  | encClear | valChar _ | valEnd | valClear | alphaRead _ | status => exact ⟨_, rfl, rfl⟩
  | decChar _ | decEnd | decClear => exact absurd rfl other

/-- In sticky error DEC.END and DEC.CLEAR put DEC to idle, and every other command leaves it as it was (R218). -/
theorem exec_sticky_cases (i : Instr) {s : State} (sticky : s.dec.err = true) :
    ∃ t : State, exec i s = .next t ∧
      ((i = .decEnd ∨ i = .decClear) ∧ t.dec = DecUnit.idle ∨ ¬ (i = .decEnd ∨ i = .decClear) ∧ t.dec = s.dec) := by
  by_cases unit : i.codecUnit = .dec
  · cases i with
    | decChar c => exact ⟨_, decChar_aborted b32c c sticky, .inr ⟨by simp, rfl⟩⟩
    | decEnd => exact ⟨_, decEnd_sticky sticky, .inl ⟨.inl rfl, rfl⟩⟩
    | decClear => exact ⟨_, rfl, .inl ⟨.inr rfl, rfl⟩⟩
    | _ => cases unit
  · obtain ⟨t, ran, kept⟩ := exec_keeps_dec unit s
    refine ⟨t, ran, .inr ⟨?_, kept⟩⟩
    rintro (rfl | rfl) <;> exact unit rfl

/-- The word is DEC.END or DEC.CLEAR, the two commands that end the sticky error (R218). -/
abbrev LeavesDec (w : Word) : Prop :=
  decode w = .ok .decEnd ∨ decode w = .ok .decClear

/-- In sticky error the words of DEC.END and DEC.CLEAR put DEC to idle, and every other word, legal or not, leaves it as it
was (R218, R219). -/
theorem runCommand_sticky_cases (w : Word) {s : State} (sticky : s.dec.err = true) :
    ∃ t : State, runCommand w s = .next t ∧
      (LeavesDec w ∧ t.dec = DecUnit.idle ∨ ¬ LeavesDec w ∧ t.dec = s.dec) := by
  cases read : decode w with
  | error e => exact ⟨_, runCommand_of_illegal read s, .inr ⟨by simp [LeavesDec, read], rfl⟩⟩
  | ok i =>
    rw [runCommand_of_decode read, LeavesDec, read, Except.ok.injEq, Except.ok.injEq]
    exact exec_sticky_cases i sticky

/-- The next step is a reset edge or accepts DEC.END or DEC.CLEAR: the three ways of R218. -/
abbrev EndsStickyError (s : State) : Prop :=
  s.nextSample.rst = true ∨ (accepts s.nextSample s.popSample = true ∧ LeavesDec s.nextSample.cmdData)

/-- A step from sticky error puts DEC to idle in the three ways of R218, and else leaves it as it was. -/
theorem step_sticky_cases {s t : State} (stepped : step s = .next t) (sticky : s.dec.err = true) :
    EndsStickyError s ∧ t.dec = DecUnit.idle ∨ ¬ EndsStickyError s ∧ t.dec = s.dec := by
  rw [step] at stepped
  rcases clockEdge_cases s.nextSample s.popSample with ⟨reset, edge⟩ | ⟨noReset, accepted, edge⟩ |
    ⟨noReset, refused, -, edge⟩ | ⟨noReset, refused, -, edge⟩
  · obtain rfl := Host.Outcome.next.inj (edge.symm.trans stepped)
    exact .inl ⟨.inl reset, rfl⟩
  · obtain ⟨u, ran, outcome⟩ :=
      runCommand_sticky_cases s.nextSample.cmdData (s := s.popSample.recordTaken s.nextSample) sticky
    obtain rfl := Host.Outcome.next.inj ((edge.trans ran).symm.trans stepped)
    simpa [EndsStickyError, noReset, accepted] using outcome
  · obtain rfl := Host.Outcome.next.inj (edge.symm.trans stepped)
    exact .inr ⟨by simp [EndsStickyError, noReset, refused], rfl⟩
  · obtain rfl := Host.Outcome.next.inj (edge.symm.trans stepped)
    exact .inr ⟨by simp [EndsStickyError, noReset, refused], rfl⟩

/-- A step from sticky error that accepts DEC.END responds with the verdict (R132, R218). -/
theorem step_decEnd_sticky {s t : State} (stepped : step s = .next t) (sticky : s.dec.err = true)
    (accepted : accepts s.nextSample s.popSample = true) (read : decode s.nextSample.cmdData = .ok .decEnd) :
    t.rsp = { valid := true, data := respWord .invalidCharacter 0 (s.dec.errch.setWidth 24) } := by
  have edge : step s = exec .decEnd (s.popSample.recordTaken s.nextSample) :=
    (edgeWith_accepts accepted).trans (runCommand_of_decode read _)
  have ended := edge.trans (decEnd_sticky (s := s.popSample.recordTaken s.nextSample) sticky)
  obtain rfl := Host.Outcome.next.inj (ended.symm.trans stepped)
  rfl

/-- Settles O23: a run of DEC.CHAR words in sticky error, by induction on the characters, is `runCommands_sticky`. -/
theorem stickyErrorAbortsEveryCharacter : Obligations.StickyErrorAbortsEveryCharacter :=
  fun cs _ sticky => runCommands_sticky cs sticky

/-- Settles O24: a step from sticky error either is one of the three exits and leaves DEC idle, or keeps DEC's registers. -/
theorem onlyEndClearOrResetLeavesStickyError : Obligations.OnlyEndClearOrResetLeavesStickyError := by
  intro s t stepped sticky
  have verdict := step_decEnd_sticky stepped sticky
  rcases step_sticky_cases stepped sticky with ⟨ends, idle⟩ | ⟨stays, kept⟩
  · have clear : t.dec.err = false := by rw [idle]; rfl
    exact ⟨iff_of_true clear ends, fun _ => idle, verdict⟩
  · have still : t.dec.err ≠ false := by rw [kept, sticky]; decide
    exact ⟨iff_of_false still stays, fun clear => absurd clear still, verdict⟩

end Sys2Proof.Machine
end

section
/-! PROOFS. Which responses a command may give (spec 60_exceptions.md R215, 30_encoding.md R78, R79, R87): O33. -/

namespace Sys2Proof

open Sys2Proof.Machine

/-- The statuses a legal command may respond with: the "produced by" column of R87, per command. -/
def Instr.statuses : Instr → List RspStatus
  | .decChar _ => [.ok, .invalidCharacter, .aborted]
  | .decEnd => [.ok, .invalidCharacter]
  | .valEnd => [.ok, .emptyInput, .invalidAlphabetCharacter]
  | _ => [.ok]

/-- The commands that R215 lists have no status but OK. -/
theorem Instr.statuses_eq_ok {i : Instr}
    (h : i.codecUnit = .enc ∨ i.codecUnit = .utility ∨ i = .valClear ∨ i = .decClear ∨ ∃ c, i = .valChar c) :
    i.statuses = [.ok] := by
  cases i with
  | decChar _ | decEnd | valEnd => rcases h with unit | unit | it | it | ⟨c, it⟩ <;> contradiction
  | _ => rfl

end Sys2Proof

namespace Sys2Proof.Codec

open Sys2Proof.Machine

variable {cw : Nat}

/-- The outcome is a next state that has just responded, with one of the statuses and a COUNT of at most 2. -/
def Answers (sts : List RspStatus) (r : Host.Outcome (State cw) Fault Refusal) : Prop :=
  ∃ (s : State cw) (st : RspStatus) (n : BitVec 2) (d : BitVec 24),
    st ∈ sts ∧ n.toNat ≤ 2 ∧ r = .next (s.respond st n d)

/-- An information word has COUNT 0 (R79). -/
theorem answers_respond {sts : List RspStatus} (s : State cw) {st : RspStatus} (h : st ∈ sts) (d : BitVec 24) :
    Answers sts (.next (s.respond st 0 d)) :=
  ⟨s, st, 0, d, h, by decide, rfl⟩

/-- A response of at most two output units has their number as COUNT (R78). -/
theorem answers_respondUnits {sts : List RspStatus} (h : .ok ∈ sts) (s : State cw) {us : List Byte} (short : us.length ≤ 2) :
    Answers sts (.next (s.respondUnits us)) := by
  refine ⟨s, .ok, BitVec.ofNat 2 us.length, packUnits us, h, ?_, rfl⟩
  exact (BitVec.toNat_ofNat us.length 2).trans_le ((Nat.mod_le _ _).trans short)

/-- The response register after an answer: fields in range, and one of the statuses (R77, R215). -/
theorem Answers.response {sts : List RspStatus} {t : State cw} (h : Answers sts (.next t)) :
    ResponseOk t.rsp.data ∧ ∃ st ∈ sts, rspStatus t.rsp.data = st.code := by
  obtain ⟨s, st, n, d, mem, count, same⟩ := h
  obtain rfl := Host.Outcome.next.inj same
  exact ⟨responseOk_respWord st d count, st, mem, rspStatus_respWord st n d⟩

/-- ENC.BYTE only ever answers OK (R109, R215). -/
theorem encByte_answers (p : CodecParams cw) (b : Byte) (s : State cw) : Answers [.ok] (encByte p b s) := by
  obtain ⟨s1, is, short, answer⟩ := encByte_respondsRomUnits p b s
  rw [answer]
  exact answers_respondUnits (by simp) s1 (by simpa using short)

/-- ENC.END only ever answers OK (R109, R215). -/
theorem encEnd_answers (p : CodecParams cw) (s : State cw) : Answers [.ok] (encEnd p s) := by
  obtain ⟨s1, is, short, answer⟩ := encEnd_respondsRomUnits p s
  rw [answer]
  exact answers_respondUnits (by simp) s1 (by rw [List.length_map]; omega)

/-- The fold of a hit responds with at most one byte (R131). -/
theorem foldSymbol_respondsUnits (s : State cw) (v : Symbol) :
    ∃ (s1 : State cw) (us : List Byte), us.length ≤ 1 ∧ s.foldSymbol v = s1.respondUnits us := by
  rcases Nat.lt_or_ge s.dec.cnt.toNat 3 with quiet | full
  · rcases Nat.lt_or_ge s.dec.acc.toNat (2 ^ s.dec.cnt.toNat) with fits | stray
    · exact ⟨_, [], by simp, foldSymbol_quiet v quiet fits⟩
    · exact ⟨_, [], by simp, foldSymbol_outside v quiet stray⟩
  · exact ⟨_, [_], by simp, foldSymbol_emits v full⟩

/-- DEC.CHAR answers ABORTED in sticky error, INVALID_CHARACTER at a miss, OK at a hit (R131). -/
theorem decChar_answers (p : CodecParams cw) (c : BitVec cw) (s : State cw) :
    Answers [.ok, .invalidCharacter, .aborted] (decChar p c s) := by
  cases sticky : s.dec.err with
  | true =>
    rw [decChar_aborted p c sticky]
    exact answers_respond s (by simp) 0
  | false =>
    cases hit : (p.inv c).hit with
    | false =>
      rw [decChar_miss sticky hit]
      exact answers_respond _ (by simp) _
    | true =>
      obtain ⟨s1, us, short, folded⟩ := foldSymbol_respondsUnits s (p.inv c).idx
      rw [decChar_hit sticky hit, folded]
      exact answers_respondUnits (by simp) s1 (by omega)

/-- DEC.END answers INVALID_CHARACTER in sticky error, else OK (R132). -/
theorem decEnd_answers (s : State cw) : Answers [.ok, .invalidCharacter] (decEnd s) := by
  cases sticky : s.dec.err with
  | true =>
    rw [decEnd_sticky sticky]
    exact answers_respond _ (by simp) _
  | false =>
    rw [decEnd_ok sticky]
    exact answers_respond _ (by simp) _

/-- VAL.END answers EMPTY_INPUT, INVALID_ALPHABET_CHARACTER or OK (R163). -/
theorem valEnd_answers (s : State cw) : Answers [.ok, .emptyInput, .invalidAlphabetCharacter] (valEnd s) := by
  cases seen : s.val.seen with
  | false =>
    rw [valEnd_empty seen]
    exact answers_respond _ (by simp) 0
  | true =>
    cases bad : s.val.bad with
    | true =>
      rw [valEnd_bad seen bad]
      exact answers_respond _ (by simp) _
    | false =>
      rw [valEnd_ok seen bad]
      exact answers_respond _ (by simp) 0

end Sys2Proof.Codec

namespace Sys2Proof.Machine

open Sys2Proof.Codec

/-- Every command answers, in every state, with one of its statuses (R87). -/
theorem exec_answers (i : Instr) (s : State) : Answers i.statuses (exec i s) := by
  cases i with
  | encByte b => exact encByte_answers b32c b s
  | encEnd => exact encEnd_answers b32c s
  | decChar c => exact decChar_answers b32c c s
  | decEnd => exact decEnd_answers s
  | valEnd => exact valEnd_answers s
  | alphaRead _ => exact answers_respondUnits (us := [_]) (List.mem_singleton_self _) s (by simp)
  | encClear | decClear | valChar _ | valClear | status => exact answers_respond _ (List.mem_singleton_self _) _

/-- Settles O33: an illegal word answers ILLEGAL_COMMAND and a command one of its statuses, all of them fields in range; the
listed commands have OK alone. -/
theorem responsesStayWithinTheirCodes : Obligations.ResponsesStayWithinTheirCodes := by
  intro w s t ran
  cases read : decode w with
  | error e =>
    obtain rfl := Host.Outcome.next.inj ((runCommand_of_illegal read s).symm.trans ran)
    obtain ⟨status, count, rsvd⟩ := responseOk_info .illegalCommand (e.opc.setWidth 24)
    exact ⟨status, count, rsvd, nofun⟩
  | ok i =>
    have answer := exec_answers i s
    rw [← runCommand_of_decode read, ran] at answer
    obtain ⟨⟨status, count, rsvd⟩, st, mem, code⟩ := answer.response
    refine ⟨status, count, rsvd, fun j same listed => ?_⟩
    obtain rfl := Except.ok.inj same
    rw [Instr.statuses_eq_ok listed, List.mem_singleton] at mem
    rw [code, mem]
    rfl

end Sys2Proof.Machine
end

section
/-! PROOFS. Encoding, the two decoders and the assembler (spec 30_encoding.md R74, R75, R83, R85): O1, O2, O3, O5 and O8. -/

namespace Sys2Proof

/-! ## Which words decode, and to what -/

/-- A word is its two fields, OPC above OPERAND (R74). -/
theorem opcField_append_operandField (w : Word) : opcField w ++ operandField w = w :=
  BitVec.extractLsb'_append_extractLsb' (w := 8) (len := 24)

/-- What the decode procedure accepts: an OPC of the table with no reserved bit of its form set (R83). -/
theorem decode_eq_ok_iff (w : Word) (i : Instr) :
    decode w = .ok i ↔
      ∃ o : Opcode, o.code = opcField w ∧ operandFits o.form (operandField w) = true ∧ o.toInstr (operandField w) = i := by
  constructor
  · intro read
    rw [decode] at read
    split at read
    · cases read
    · next o found =>
      split at read
      · next fits => exact ⟨o, Opcode.code_of_ofCode? found, fits, Except.ok.inj read⟩
      · cases read
  · rintro ⟨o, code, fits, rfl⟩
    simp [decode, ← code, fits]

/-- The command of a row and an operand is a command of that row (R83). -/
@[simp] theorem Opcode.opcode_toInstr (o : Opcode) (x : BitVec 24) : (o.toInstr x).opcode = o := by
  cases o <;> rfl

/-- A field narrowed to its width comes back whole when nothing stands above it (R75). -/
theorem zext24_setWidth {n : Nat} {x : BitVec 24} (h : x.toNat < 2 ^ n) : zext24 (x.setWidth n) = x := by
  apply BitVec.eq_of_toNat_eq
  rw [zext24, BitVec.toNat_setWidth, BitVec.toNat_setWidth, Nat.mod_eq_of_lt h, Nat.mod_eq_of_lt x.isLt]

/-- An operand with no reserved bit set is the operand of the command read from it (R75, R83). -/
theorem Opcode.operand_toInstr {o : Opcode} {x : BitVec 24} (fits : operandFits o.form x = true) :
    (o.toInstr x).operand = x := by
  have small := (operandFits_iff o.form x).mp fits
  have none_left (h : x.toNat < 2 ^ 0) : (0 : BitVec 24) = x :=
    BitVec.eq_of_toNat_eq (Nat.lt_one_iff.mp h).symm
  cases o with
  | encByte | decChar | valChar | alphaRead => exact zext24_setWidth small
  | encEnd | encClear | decEnd | decClear | valEnd | valClear | status => exact none_left small

/-- A decoded word is the encoding of what it decodes to (R83). -/
theorem encode_of_decode {w : Word} {i : Instr} (h : decode w = .ok i) : encode i = w := by
  obtain ⟨o, code, fits, rfl⟩ := (decode_eq_ok_iff w i).mp h
  rw [encode, Opcode.opcode_toInstr, Opcode.operand_toInstr fits, commandWord, code, opcField_append_operandField]

/-- Settles O1: a command's operand lies in its field, so decoding finds no reserved bit and reads the command back. -/
theorem decodeOfEncodeIsTheCommand : Obligations.DecodeOfEncodeIsTheCommand := by
  intro i
  exact ⟨i.operand_fits, decode_encode i⟩

/-- Settles O2: a word is its opcode and its operand, and decoding keeps both. -/
theorem encodeOfDecodeIsTheWord : Obligations.EncodeOfDecodeIsTheWord :=
  fun _ _ => encode_of_decode

/-- Settles O5: each word is evaluated by the decode procedure. -/
theorem wordsOfTheSpecDecodeToTheirCommands : Obligations.WordsOfTheSpecDecodeToTheirCommands :=
  ⟨rfl, rfl, rfl, rfl, rfl, rfl, rfl, rfl⟩

/-! ## The table-driven decoder -/

/-- The operand bits above a form's field (R75). -/
def OperandForm.reservedBits (f : OperandForm) : BitVec 24 :=
  BitVec.allOnes 24 <<< f.fieldWidth

/-- The mask's bits are those from the field's width up (R75). -/
theorem OperandForm.getLsbD_reservedBits (f : OperandForm) {i : Nat} (hi : i < 24) :
    f.reservedBits.getLsbD i = decide (f.fieldWidth ≤ i) := by
  rw [reservedBits, BitVec.getLsbD_shiftLeft, BitVec.getLsbD_allOnes]
  by_cases low : i < f.fieldWidth
  · simp [low]
  · simp [low, hi, Nat.not_lt.mp low, show i - f.fieldWidth < 24 by omega]

/-- No bit of an operand is under the mask of a form's reserved bits exactly when the operand fits the form (R75). -/
theorem and_reservedBits_eq_zero_iff (f : OperandForm) (x : BitVec 24) :
    x &&& f.reservedBits = 0#24 ↔ operandFits f x = true := by
  rw [operandFits_iff]
  constructor
  · intro clear
    refine Nat.lt_pow_two_of_testBit _ fun i high => ?_
    by_cases hi : i < 24
    · have bit := congrArg (BitVec.getLsbD · i) clear
      rwa [BitVec.getLsbD_and, f.getLsbD_reservedBits hi, decide_eq_true high, Bool.and_true, BitVec.getLsbD_zero] at bit
    · exact BitVec.getLsbD_of_ge x i (Nat.not_lt.mp hi)
  · intro small
    refine BitVec.eq_of_getLsbD_eq fun i hi => ?_
    rw [BitVec.getLsbD_and, f.getLsbD_reservedBits hi, BitVec.getLsbD_zero]
    by_cases low : i < f.fieldWidth
    · rw [decide_eq_false (Nat.not_le.mpr low), Bool.and_false]
    · have bit : x.getLsbD i = false := Nat.testBit_lt_two_pow
        (small.trans_le (Nat.pow_le_pow_right (by decide) (Nat.not_lt.mp low)))
      rw [bit, Bool.false_and]

/-- A row's mask covers OPC and its form's reserved bits, and its bits are OPC and zeros (R83). -/
theorem opcodeTable_masks : ∀ r ∈ opcodeTable,
    r.mask = 0xFF#8 ++ r.opcode.form.reservedBits ∧ r.bits = r.opcode.code ++ 0#24 := by decide

/-- A word matches a row exactly when it has the row's OPC and no reserved bit of its form set (R83). -/
theorem OpcodeRow.hits_iff {r : OpcodeRow} (hr : r ∈ opcodeTable) (w : Word) :
    r.hits w = true ↔ r.opcode.code = opcField w ∧ operandFits r.opcode.form (operandField w) = true := by
  obtain ⟨mask, bits⟩ := opcodeTable_masks r hr
  have covered : w &&& r.mask = opcField w ++ (operandField w &&& r.opcode.form.reservedBits) := by
    conv_lhs => rw [mask, ← opcField_append_operandField w, BitVec.and_append]
    rw [show (0xFF#8) = BitVec.allOnes 8 from rfl, BitVec.and_allOnes]
  rw [OpcodeRow.hits, beq_iff_eq, covered, bits, ← and_reservedBits_eq_zero_iff]
  constructor
  · intro h
    have opc := congrArg (BitVec.extractLsb' 24 8) h
    have operand := congrArg (BitVec.extractLsb' 0 24) h
    rw [BitVec.extractLsb'_append_eq_left, BitVec.extractLsb'_append_eq_left] at opc
    rw [BitVec.extractLsb'_append_eq_right, BitVec.extractLsb'_append_eq_right] at operand
    exact ⟨opc.symm, operand⟩
  · rintro ⟨code, fits⟩
    rw [code, fits]

/-- Two rows with one OPC are one row (R80). -/
theorem opcodeTable_code_injective : ∀ r1 ∈ opcodeTable, ∀ r2 ∈ opcodeTable,
    r1.opcode.code = r2.opcode.code → r1 = r2 := by decide

/-- A word matches at most one row: the row's OPC is the word's (R83). -/
theorem OpcodeRow.hits_unique {w : Word} {r1 r2 : OpcodeRow} (h1 : r1 ∈ opcodeTable) (h2 : r2 ∈ opcodeTable)
    (hits1 : r1.hits w = true) (hits2 : r2.hits w = true) : r1 = r2 := by
  obtain ⟨code1, -⟩ := (OpcodeRow.hits_iff h1 w).mp hits1
  obtain ⟨code2, -⟩ := (OpcodeRow.hits_iff h2 w).mp hits2
  exact opcodeTable_code_injective r1 h1 r2 h2 (code1.trans code2.symm)

/-- Every opcode has its row (R80). -/
theorem exists_row (o : Opcode) : ∃ r ∈ opcodeTable, r.opcode = o := by
  have column : opcodeTable.map (fun r => r.opcode) = Opcode.all := rfl
  exact List.mem_map.mp (column ▸ o.mem_all)

/-- The row found for a word is a row of the table that the word matches (R83). -/
theorem mem_and_hits_of_find? {w : Word} {r : OpcodeRow} (found : opcodeTable.find? (fun r => r.hits w) = some r) :
    r ∈ opcodeTable ∧ r.hits w = true :=
  ⟨List.mem_of_find?_eq_some found, List.find?_some (p := (OpcodeRow.hits · w)) found⟩

/-- What the table-driven decoder accepts: a word that matches a row (R83). -/
theorem tableDecode_eq_some_iff (w : Word) (i : Instr) :
    tableDecode w = some i ↔ ∃ r ∈ opcodeTable, r.hits w = true ∧ r.opcode.toInstr (operandField w) = i := by
  rw [tableDecode, Option.map_eq_some_iff]
  constructor
  · rintro ⟨r, found, read⟩
    obtain ⟨hr, hits⟩ := mem_and_hits_of_find? found
    exact ⟨r, hr, hits, read⟩
  · rintro ⟨r, hr, hits, read⟩
    cases found : opcodeTable.find? (fun r => r.hits w) with
    | none => exact absurd hits (List.find?_eq_none.mp found r hr)
    | some r1 =>
      obtain ⟨hr1, hits1⟩ := mem_and_hits_of_find? found
      obtain rfl := OpcodeRow.hits_unique hr1 hr hits1 hits
      exact ⟨r1, rfl, read⟩

/-- Settles O3: both decoders accept a word with the OPC of a row and no reserved bit of the row's form set, and read the
same command from it. -/
theorem tableDecoderAgreesWithTheProcedure : Obligations.TableDecoderAgreesWithTheProcedure := by
  intro w
  refine ⟨fun i => ?_, fun r1 h1 r2 h2 => OpcodeRow.hits_unique h1 h2⟩
  rw [decode_eq_ok_iff, tableDecode_eq_some_iff]
  constructor
  · rintro ⟨o, code, fits, read⟩
    obtain ⟨r, hr, rfl⟩ := exists_row o
    exact ⟨r, hr, (OpcodeRow.hits_iff hr w).mpr ⟨code, fits⟩, read⟩
  · rintro ⟨r, hr, hits, read⟩
    obtain ⟨code, fits⟩ := (OpcodeRow.hits_iff hr w).mp hits
    exact ⟨r.opcode, code, fits, read⟩

/-! ## The assembler -/

/-- A line other than `.word` assembles to the words of a list of commands (R85, R86). -/
theorem assemble_eq_encode {l : AsmLine} {ws : List Word} (assembled : assemble l = some ws) (notWord : ∀ n, l ≠ .word n) :
    ∃ is : List Instr, ws = is.map encode := by
  cases l with
  | empty => exact ⟨[], (Option.some.inj assembled).symm⟩
  | word n => exact absurd rfl (notWord n)
  | command o x =>
    obtain ⟨i, -, rfl⟩ := Option.map_eq_some_iff.mp assembled
    exact ⟨[i], rfl⟩
  | encMsg ns | decMsg ns | valMsg ns =>
    obtain ⟨_, -, rfl⟩ := Option.map_eq_some_iff.mp assembled
    exact ⟨_, rfl⟩
  | unitsClear | alphaDump => exact ⟨_, (Option.some.inj assembled).symm⟩

/-- Settles O8: the words are encodings of commands, and these decode. -/
theorem assembledLinesDecode : Obligations.AssembledLinesDecode := by
  intro l ws assembled notWord w hw
  obtain ⟨is, rfl⟩ := assemble_eq_encode assembled notWord
  obtain ⟨i, -, rfl⟩ := List.mem_map.mp hw
  exact ⟨i, decode_encode i⟩

end Sys2Proof
end

section
/-! PROOFS. The alphabet and the whitespace set of B32C (spec 10_state.md R21, R23, R25; 42_validator.md R161): O9, O11 and
O12. -/

namespace Sys2Proof

variable {cw : Nat}

/-- A code hits exactly when it is an entry (R24). -/
theorem CodecParams.hit_iff_rom (p : CodecParams cw) (c : BitVec cw) :
    (p.inv c).hit = true ↔ ∃ i : Symbol, (p.rom i).setWidth cw = c :=
  ⟨fun hit => ⟨_, CodecParams.rom_of_hit hit⟩, fun ⟨_, entry⟩ => CodecParams.hit_of_rom entry⟩

/-- A whitespace code is no entry, so it misses (R161). -/
theorem CodecParams.hit_of_isWs {p : CodecParams cw} (hp : p.wf = true) {c : BitVec cw} (ws : p.isWs c = true) :
    (p.inv c).hit = false := by
  refine Bool.eq_false_iff.mpr fun hit => ?_
  rw [← CodecParams.rom_of_hit hit, CodecParams.isWs_rom hp] at ws
  cases ws

namespace Machine

/-- B32C's codes as numbers, in the order of the ROM (R21). -/
def romNumbers : List Nat :=
  (List.finRange 32).map (fun i => (rom (BitVec.ofFin i)).toNat)

/-- A code of B32C hits exactly when its number is in the ROM (R24). -/
theorem hit_iff_mem_romNumbers (c : CharCode) : (inv c).hit = true ↔ c.toNat ∈ romNumbers := by
  rw [inv, CodecParams.hit_iff_rom, romNumbers, List.mem_map]
  constructor
  · rintro ⟨i, rfl⟩
    exact ⟨i.toFin, List.mem_finRange _, (BitVec.toNat_setWidth_of_le (by decide)).symm⟩
  · rintro ⟨i, -, same⟩
    exact ⟨BitVec.ofFin i, BitVec.eq_of_toNat_eq ((BitVec.toNat_setWidth_of_le (by decide)).trans same)⟩

/-- Below 0x80, the ROM's codes are the digits and the uppercase letters other than I, L, O and U (R25). -/
theorem mem_romNumbers_iff_of_lt : ∀ n < 0x80, n ∈ romNumbers ↔
    (0x30 ≤ n ∧ n ≤ 0x39) ∨ (0x41 ≤ n ∧ n ≤ 0x5A ∧ n ≠ 0x49 ∧ n ≠ 0x4C ∧ n ≠ 0x4F ∧ n ≠ 0x55) := by decide

/-- No code of the ROM is above ASCII (R23). -/
theorem lt_of_mem_romNumbers : ∀ n ∈ romNumbers, n < 0x80 := by decide

/-- Settles O9: the entries are evaluated; the ROM is injective because the parameters are well-formed. -/
theorem romHoldsTheAlphabet : Obligations.RomHoldsTheAlphabet := by
  refine ⟨by decide, fun i j same => ?_, fun i => ?_⟩
  · exact CodecParams.rom_injective (CodecParams.distinct_of_wf b32c_wf) same
  · exact lt_of_mem_romNumbers _ (List.mem_map.mpr ⟨i.toFin, List.mem_finRange _, rfl⟩)

/-- Settles O11: neither the ROM nor the listed characters reach 0x80, and below it they are compared code by code. -/
theorem onlyDigitsAndAlphabetLettersHit : Obligations.OnlyDigitsAndAlphabetLettersHit := by
  intro c
  rw [hit_iff_mem_romNumbers]
  rcases Nat.lt_or_ge c.toNat 0x80 with ascii | above
  · exact mem_romNumbers_iff_of_lt c.toNat ascii
  · refine iff_of_false (fun entry => ?_) (by omega)
    exact absurd (lt_of_mem_romNumbers _ entry) (Nat.not_lt.mpr above)

/-- A code of B32C is whitespace exactly when its number is listed (R161). -/
theorem isWs_iff_mem (c : CharCode) : isWs c = true ↔ c.toNat ∈ whitespaceCodes.map BitVec.toNat := by
  rw [isWs, CodecParams.isWs, List.contains_iff_mem, List.mem_map_of_injective fun _ _ => BitVec.eq_of_toNat_eq]
  rfl

/-- Settles O12: WS_SET is its list of numbers, and well-formed parameters keep it apart from the alphabet. -/
theorem whitespaceIsTheListedCodes : Obligations.WhitespaceIsTheListedCodes := by
  refine ⟨fun c => ?_, rfl, by decide, fun c ws => CodecParams.hit_of_isWs b32c_wf ws⟩
  have numbers : whitespaceCodes.map BitVec.toNat =
      [0x0009, 0x000A, 0x000B, 0x000C, 0x000D, 0x0020, 0x00A0, 0x1680, 0x2000, 0x2001, 0x2002, 0x2003, 0x2004, 0x2005, 0x2006,
        0x2007, 0x2008, 0x2009, 0x200A, 0x2028, 0x2029, 0x202F, 0x205F, 0x3000, 0xFEFF] := rfl
  rw [isWs_iff_mem, numbers]
  simp only [List.mem_cons, List.not_mem_nil, or_false]
  omega

end Machine

end Sys2Proof
end

section
/-! PROOFS. The block with parameters and B32C (spec 00_scope.md R7, 30_encoding.md R75, R83): O56 and O57. -/

namespace Sys2Proof.Machine

/-- The case list of R83 at B32C's parameters is the command read from the word. -/
theorem command_b32c (o : Opcode) (x : BitVec 24) (s : State) : Codec.command b32c o x s = exec (o.toInstr x) s := by
  cases o <;> rfl

/-- B32C's `Step` is the parameterised one at B32C's values (R7, R83). -/
theorem runCommand_eq_codec : runCommand = Codec.runCommand b32c := by
  funext w s
  rw [runCommand, Codec.runCommand, decode]
  cases Opcode.ofCode? (opcField w) with
  | none => rfl
  | some o =>
    by_cases fits : operandFitsOf 21 o.form (operandField w) = true
    · simp [operandFits, fits, command_b32c]
    · simp [operandFits, fits, Illegal.opc]

/-- B32C's step is the parameterised one at B32C's values (R7, R72). -/
theorem step_eq_codec (s : State) : step s = Codec.step b32c s := by
  rw [step, clockEdge, runCommand_eq_codec, Codec.step]

/-- Settles O56: the decoder's command and the case list's agree, opcode by opcode. -/
theorem machineIsTheB32CInstance : Obligations.MachineIsTheB32CInstance := by
  refine ⟨fun w s => ?_, step_eq_codec⟩
  rw [runCommand_eq_codec]

end Sys2Proof.Machine

namespace Sys2Proof.Codec

open Sys2Proof.Machine

/-- Settles O57: the reserved bits of a CHAR operand start at CHAR_W, and a smaller operand is its character. -/
theorem characterCommandsOfAnyParameters : Obligations.CharacterCommandsOfAnyParameters := by
  intro cw p s x
  refine ⟨fun large => ⟨?_, ?_⟩, fun small => ⟨fun clear miss => ?_, ?_⟩⟩
  · exact runCommand_reserved p (o := .decChar) large s
  · exact runCommand_reserved p (o := .valChar) large s
  · have data : (x.setWidth cw).setWidth 24 = x := zext24_setWidth small
    have entered := (runCommand_legal p (o := .decChar) small s).trans (decChar_miss (c := charOperand x) clear miss)
    rwa [State.enterDecError, charOperand, data] at entered
  · exact (runCommand_legal p (o := .valChar) small s).trans (valChar_scans p (charOperand x) s)

end Sys2Proof.Codec
end

section
/-! PROOFS. What a command writes (spec 10_state.md R42), and the edges of the port (30_encoding.md R72, R83;
70_reset_and_hazards.md R240, R246): O30 and O34 to O39. -/

namespace Sys2Proof

/-- An illegal word's response echoes its OPC (R76). -/
theorem opc_of_decode_error {w : Word} {e : Illegal} (h : decode w = .error e) : e.opc = opcField w := by
  rw [decode] at h
  split at h
  · exact Except.error.inj h ▸ rfl
  · split at h
    · cases h
    · exact Except.error.inj h ▸ rfl

end Sys2Proof

namespace Sys2Proof.Codec

open Sys2Proof.Machine

variable {cw : Nat}

/-- What a command of the unit leaves as it was, and that it responds (R42, R72). -/
structure Frame (u : CodecUnit) (s t : State cw) : Prop where
  /-- ENC changes by ENC's commands only. -/
  enc : u ≠ .enc → t.enc = s.enc
  /-- DEC changes by DEC's commands only. -/
  dec : u ≠ .dec → t.dec = s.dec
  /-- VAL changes by VAL's commands only. -/
  val : u ≠ .val → t.val = s.val
  /-- The port's waveform stays. -/
  port : t.port = s.port
  /-- The host's record stays. -/
  taken : t.taken = s.taken
  /-- The response register is filled. -/
  valid : t.rsp.valid = true

/-- Writing ENC, a response and the free values' index is in ENC's frame. -/
theorem frame_enc (s : State cw) (e : EncUnit) (w : Word) (k : Nat) :
    Frame .enc s { s with enc := e, rsp := { valid := true, data := w }, freeCount := k } :=
  ⟨fun own => absurd rfl own, fun _ => rfl, fun _ => rfl, rfl, rfl, rfl⟩

/-- Writing DEC, a response and the free values' index is in DEC's frame. -/
theorem frame_dec (s : State cw) (d : DecUnit cw) (w : Word) (k : Nat) :
    Frame .dec s { s with dec := d, rsp := { valid := true, data := w }, freeCount := k } :=
  ⟨fun _ => rfl, fun own => absurd rfl own, fun _ => rfl, rfl, rfl, rfl⟩

/-- Writing VAL and a response is in VAL's frame. -/
theorem frame_val (s : State cw) (v : ValUnit cw) (w : Word) :
    Frame .val s { s with val := v, rsp := { valid := true, data := w } } :=
  ⟨fun _ => rfl, fun _ => rfl, fun own => absurd rfl own, rfl, rfl, rfl⟩

/-- Writing a response is in every unit's frame. -/
theorem frame_respond (u : CodecUnit) (s : State cw) (w : Word) :
    Frame u s { s with rsp := { valid := true, data := w } } :=
  ⟨fun _ => rfl, fun _ => rfl, fun _ => rfl, rfl, rfl, rfl⟩

/-- ENC.BYTE keeps to ENC's frame, in every state (R42). -/
theorem encByte_frame (p : CodecParams cw) (b : Byte) (s : State cw) : ∃ t, encByte p b s = .next t ∧ Frame .enc s t := by
  rcases Nat.lt_or_ge 4 s.enc.cnt.toNat with outside | within
  · exact ⟨_, encByte_outside p b outside, frame_enc ..⟩
  · exact ⟨_, encByte_within p b within, frame_enc ..⟩

/-- ENC.END keeps to ENC's frame, in every state (R42). -/
theorem encEnd_frame (p : CodecParams cw) (s : State cw) : ∃ t, encEnd p s = .next t ∧ Frame .enc s t := by
  by_cases empty : s.enc.cnt = 0
  · exact ⟨_, encEnd_empty p empty, frame_enc ..⟩
  · rcases Nat.lt_or_ge 4 s.enc.cnt.toNat with outside | within
    · exact ⟨_, encEnd_outside p outside, frame_enc ..⟩
    · exact ⟨_, encEnd_partial p empty within, frame_enc ..⟩

/-- The fold of a hit keeps to DEC's frame, in every state (R42). -/
theorem foldSymbol_frame (s : State cw) (v : Symbol) : Frame .dec s (s.foldSymbol v) := by
  rcases Nat.lt_or_ge s.dec.cnt.toNat 3 with quiet | full
  · rcases Nat.lt_or_ge s.dec.acc.toNat (2 ^ s.dec.cnt.toNat) with fits | stray
    · rw [foldSymbol_quiet v quiet fits]
      exact frame_dec ..
    · rw [foldSymbol_outside v quiet stray]
      exact frame_dec ..
  · rw [foldSymbol_emits v full]
    exact frame_dec ..

/-- DEC.CHAR keeps to DEC's frame, in every state (R42). -/
theorem decChar_frame (p : CodecParams cw) (c : BitVec cw) (s : State cw) : ∃ t, decChar p c s = .next t ∧ Frame .dec s t := by
  cases sticky : s.dec.err with
  | true => exact ⟨_, decChar_aborted p c sticky, frame_respond ..⟩
  | false =>
    cases hit : (p.inv c).hit with
    | false => exact ⟨_, decChar_miss sticky hit, frame_dec ..⟩
    | true => exact ⟨_, decChar_hit sticky hit, foldSymbol_frame ..⟩

/-- DEC.END keeps to DEC's frame, in every state (R42). -/
theorem decEnd_frame (s : State cw) : ∃ t, decEnd s = .next t ∧ Frame .dec s t := by
  cases sticky : s.dec.err with
  | true => exact ⟨_, decEnd_sticky sticky, frame_dec ..⟩
  | false => exact ⟨_, decEnd_ok sticky, frame_dec ..⟩

/-- Every command answers next, in its unit's frame (R42). -/
theorem command_frame (p : CodecParams cw) (o : Opcode) (x : BitVec 24) (s : State cw) :
    ∃ t, command p o x s = .next t ∧ Frame o.codecUnit s t := by
  cases o with
  | encByte => exact encByte_frame p _ s
  | encEnd => exact encEnd_frame p s
  | encClear => exact ⟨_, rfl, frame_enc ..⟩
  | decChar => exact decChar_frame p _ s
  | decEnd => exact decEnd_frame s
  | decClear => exact ⟨_, rfl, frame_dec ..⟩
  | valChar | valEnd | valClear => exact ⟨_, rfl, frame_val ..⟩
  | alphaRead | status => exact ⟨_, rfl, frame_respond ..⟩

/-- `Step` is the word's command, or the response to an illegal word (R83). -/
theorem runCommand_cases (p : CodecParams cw) (w : Word) :
    (∃ (o : Opcode) (x : BitVec 24), runCommand p w = command p o x) ∨
      runCommand p w = fun s => .next (s.respondIllegal (opcField w)) := by
  cases row : Opcode.ofCode? (opcField w) with
  | none => exact .inr (funext fun s => by simp [runCommand, row])
  | some o =>
    by_cases fits : operandFitsOf cw o.form (operandField w) = true
    · exact .inl ⟨o, operandField w, funext fun s => by simp [runCommand, row, fits]⟩
    · exact .inr (funext fun s => by simp [runCommand, row, fits])

/-- Every word answers next and responds, and leaves the port's waveform and the host's record (R83). -/
theorem runCommand_responds (p : CodecParams cw) (w : Word) (s : State cw) :
    ∃ t : State cw, runCommand p w s = .next t ∧ t.port = s.port ∧ t.taken = s.taken ∧ t.rsp.valid = true := by
  rcases runCommand_cases p w with ⟨o, x, legal⟩ | illegal
  · obtain ⟨t, ran, frame⟩ := command_frame p o x s
    exact ⟨t, (congrFun legal s).trans ran, frame.port, frame.taken, frame.valid⟩
  · exact ⟨_, congrFun illegal s, rfl, rfl, rfl⟩

/-- A command is accepted when it is offered without reset, and no response waits or the waiting one is taken (R71, R72). -/
theorem accepts_iff (p : PortSample) (s : State cw) :
    accepts p s = true ↔ p.rst = false ∧ p.cmdValid = true ∧ (s.rsp.valid = false ∨ p.rspReady = true) := by
  simp only [accepts, cmdReady, Bool.and_eq_true, Bool.or_eq_true, Bool.not_eq_true']
  tauto

/-- A command is accepted only when a response that waits is taken (R71, R72). -/
theorem takes_of_accepts {p : PortSample} {s : State cw} (h : accepts p s = true) : takes p s = s.rsp.valid := by
  obtain ⟨-, -, free⟩ := (accepts_iff p s).mp h
  rcases free with none_waits | taken
  · rw [takes, none_waits, Bool.false_and]
  · rw [takes, taken, Bool.and_true]

/-- With no samples left the host drives nothing (log entry 2). -/
theorem nextSample_of_port_nil {s : State cw} (h : s.port = []) : s.nextSample = idleSample := by
  rw [State.nextSample, h]
  rfl

/-- With no samples left none is used up (log entry 2). -/
theorem popSample_of_port_nil {s : State cw} (h : s.port = []) : s.popSample = s := by
  rw [State.popSample, h, List.tail_nil, ← h]

end Sys2Proof.Codec

namespace Sys2Proof.Machine

open Sys2Proof.Codec

/-- B32C's command is the parameterised one on its opcode and its operand. -/
theorem exec_eq_command (i : Instr) : exec i = Codec.command b32c i.opcode i.operand := by
  funext s
  rw [command_b32c, i.toInstr_operand]

/-- Every command of B32C answers next, in its unit's frame (R42). -/
theorem exec_frame (i : Instr) (s : State) : ∃ t, exec i s = .next t ∧ Frame i.codecUnit s t := by
  rw [exec_eq_command]
  exact command_frame b32c i.opcode i.operand s

/-- Settles O30: each arm of a command's meaning writes its unit, the response register and the free values' index only. -/
theorem commandsWriteOnlyTheirUnit : Obligations.CommandsWriteOnlyTheirUnit := by
  intro i s
  obtain ⟨t, ran, frame⟩ := exec_frame i s
  exact ⟨t, ran, frame.enc, frame.dec, frame.val, frame.port, frame.taken, frame.valid⟩

/-- Settles O34: a legal word runs its command, an illegal one has its response, and each kind of edge has its next state. -/
theorem everyWordAndEveryEdgeAnswersNext : Obligations.EveryWordAndEveryEdgeAnswersNext := by
  have words (w : Word) (s : State) : ∃ t : State, runCommand w s = .next t ∧ t.rsp.valid = true := by
    rw [runCommand_eq_codec]
    obtain ⟨t, ran, -, -, valid⟩ := Codec.runCommand_responds b32c w s
    exact ⟨t, ran, valid⟩
  refine ⟨words, fun s => ?_⟩
  rcases clockEdge_cases s.nextSample s.popSample with ⟨-, edge⟩ | ⟨-, -, edge⟩ | ⟨-, -, -, edge⟩ | ⟨-, -, -, edge⟩
  · exact ⟨_, edge⟩
  · obtain ⟨t, ran, -⟩ := words s.nextSample.cmdData (s.popSample.recordTaken s.nextSample)
    exact ⟨t, edge.trans ran⟩
  · exact ⟨_, edge⟩
  · exact ⟨_, edge⟩

/-- A step that accepts a command runs its word, with the sample used and a response that waited recorded (R72). -/
theorem step_accepts {s : State} {p : PortSample} {rest : List PortSample} (h : s.port = p :: rest)
    (accepted : accepts p s = true) :
    step s = runCommand p.cmdData
      { s with port := rest, taken := if s.rsp.valid then s.taken ++ [s.rsp.data] else s.taken } := by
  have edge : clockEdge p { s with port := rest } = runCommand p.cmdData (State.recordTaken { s with port := rest } p) :=
    edgeWith_accepts accepted
  have recorded : takes p { s with port := rest } = s.rsp.valid := takes_of_accepts accepted
  rw [step_cons h, edge, State.recordTaken, recorded]

/-- Settles O35: the accepted word decodes, or it is illegal and its OPC is echoed. -/
theorem stepRunsTheOfferedCommand : Obligations.StepRunsTheOfferedCommand := by
  intro s p rest listed noReset offered free
  have ran := step_accepts listed ((accepts_iff p s).mpr ⟨noReset, offered, free⟩)
  refine ⟨fun i read => ?_, fun e illegal => ?_⟩
  · exact ran.trans (runCommand_of_decode read _)
  · rw [ran, runCommand_of_illegal illegal, opc_of_decode_error illegal]
    rfl

/-- Settles O36: the placed sample offers the word and takes a waiting response, so it is accepted, and the word decodes. -/
theorem stepRunsTheWordPlacedForIt : Obligations.StepRunsTheWordPlacedForIt := by
  intro s i
  have word : BitVec.ofNat 32 ((encode i).toNat % 2 ^ 32) = encode i := by
    rw [Nat.mod_eq_of_lt (encode i).isLt, BitVec.ofNat_toNat, BitVec.setWidth_eq]
  rw [State.withFetchWord, word,
    step_accepts (State.offer_port s (encode i)) ((accepts_iff _ _).mpr ⟨rfl, rfl, .inr rfl⟩)]
  exact runCommand_encode i _

/-- Settles O37: the reset edge writes the reset values, whatever else the host drives. -/
theorem resetEdgeClearsEveryRegister : Obligations.ResetEdgeClearsEveryRegister := by
  intro s p rest listed reset
  refine ⟨by rw [cmdReady, reset]; rfl, ?_⟩
  rw [step_cons listed]
  exact edgeWith_reset _ reset

/-- Settles O38: without a command accepted, the edge takes the waiting response or holds. -/
theorem edgeWithoutCommandTakesOrHolds : Obligations.EdgeWithoutCommandTakesOrHolds := by
  intro s p rest listed noReset noCommand
  have refused : accepts p { s with port := rest } = false := by
    refine Bool.eq_false_iff.mpr fun accepted => ?_
    obtain ⟨-, offered, free⟩ := (accepts_iff _ _).mp accepted
    rcases noCommand with notOffered | ⟨waits, untaken⟩
    · simp [notOffered] at offered
    · simp [waits, untaken] at free
  rw [step_cons listed]
  refine ⟨fun waits taken => ?_, fun notTaken => ?_, fun waits untaken => ?_⟩
  · have takes_it : takes p { s with port := rest } = true := by simp [takes, waits, taken]
    refine (edgeWith_takes noReset refused takes_it).trans ?_
    rw [State.recordTaken, takes_it]
    rfl
  · have takes_none : takes p { s with port := rest } = false := by
      rcases notTaken with none_waits | untaken
      · simp [takes, none_waits]
      · simp [takes, untaken]
    exact edgeWith_holds noReset refused takes_none
  · simp [cmdReady, waits, untaken]

/-- Settles O39: the idle sample neither resets, offers nor takes. -/
theorem idleHostChangesNothing : Obligations.IdleHostChangesNothing := by
  intro s ended
  have refused : accepts idleSample s = false := rfl
  have takes_none : takes idleSample s = false := Bool.and_false _
  rw [step, nextSample_of_port_nil ended, popSample_of_port_nil ended]
  exact edgeWith_holds rfl refused takes_none

end Sys2Proof.Machine
end

section
/-! PROOFS. The pending bits of ENC and DEC as the low bits of an unbounded number (spec 10_state.md R26 to R30, R43), and
what the units' commands do with them (40_encoder.md R101, R102; 41_decoder.md R131). -/

namespace Sys2Proof

/-- The low k bits of a buffer with w new bits behind it do not depend on the bits above its n pending ones (R43). -/
theorem push_mod (acc b : Nat) {n w k : Nat} (h : k ≤ n + w) :
    (acc % 2 ^ n * 2 ^ w + b) % 2 ^ k = (acc * 2 ^ w + b) % 2 ^ k := by
  have pushed : acc % 2 ^ n * 2 ^ w + b ≡ acc * 2 ^ w + b [MOD 2 ^ n * 2 ^ w] :=
    ((Nat.mod_modEq acc (2 ^ n)).mul_right' (2 ^ w)).add_right b
  rw [← Nat.pow_add] at pushed
  exact pushed.of_dvd (Nat.pow_dvd_pow 2 h)

/-- Nor does a window of v bits from bit j up within these n + w bits (R43). -/
theorem push_window (acc b : Nat) {n w j v : Nat} (h : j + v ≤ n + w) :
    BitVec.ofNat v ((acc % 2 ^ n * 2 ^ w + b) / 2 ^ j) = BitVec.ofNat v ((acc * 2 ^ w + b) / 2 ^ j) := by
  apply BitVec.eq_of_toNat_eq
  rw [BitVec.toNat_ofNat, BitVec.toNat_ofNat, ← Nat.mod_mul_right_div_self, ← Nat.mod_mul_right_div_self, ← Nat.pow_add,
    push_mod acc b h]

namespace Machine

/-- ENC with n bits pending, the low n bits of acc. -/
def EncUnit.pending (acc n : Nat) : EncUnit :=
  { acc := BitVec.ofNat 4 (acc % 2 ^ n), cnt := BitVec.ofNat 3 n }

/-- DEC without sticky error and with n bits pending, the low n bits of acc. -/
def DecUnit.pending {cw : Nat} (acc n : Nat) : DecUnit cw :=
  { acc := BitVec.ofNat 7 (acc % 2 ^ n), cnt := BitVec.ofNat 3 n, err := false, errch := 0 }

/-- An idle ENC has no bits of 0 pending (R40). -/
theorem EncUnit.idle_eq_pending : EncUnit.idle = pending 0 0 := rfl

/-- An idle DEC has no bits of 0 pending (R40). -/
theorem DecUnit.idle_eq_pending {cw : Nat} : (idle : DecUnit cw) = pending 0 0 := rfl

theorem EncUnit.pending_cnt (acc : Nat) {n : Nat} (h : n ≤ 4) : (pending acc n).cnt.toNat = n :=
  (BitVec.toNat_ofNat n 3).trans (Nat.mod_eq_of_lt (by omega))

theorem EncUnit.pending_acc (acc : Nat) {n : Nat} (h : n ≤ 4) : (pending acc n).acc.toNat = acc % 2 ^ n := by
  have fits : acc % 2 ^ n < 2 ^ 4 :=
    (Nat.mod_lt _ (Nat.two_pow_pos n)).trans_le (Nat.pow_le_pow_right (by decide) h)
  exact (BitVec.toNat_ofNat _ 4).trans (Nat.mod_eq_of_lt fits)

theorem DecUnit.pending_cnt {cw : Nat} (acc : Nat) {n : Nat} (h : n ≤ 7) : (pending acc n : DecUnit cw).cnt.toNat = n :=
  (BitVec.toNat_ofNat n 3).trans (Nat.mod_eq_of_lt (by omega))

theorem DecUnit.pending_acc {cw : Nat} (acc : Nat) {n : Nat} (h : n ≤ 7) :
    (pending acc n : DecUnit cw).acc.toNat = acc % 2 ^ n := by
  have fits : acc % 2 ^ n < 2 ^ 7 :=
    (Nat.mod_lt _ (Nat.two_pow_pos n)).trans_le (Nat.pow_le_pow_right (by decide) h)
  exact (BitVec.toNat_ofNat _ 7).trans (Nat.mod_eq_of_lt fits)

/-- ENC's invariant says that its buffer is some pending bits (R26, R27). -/
theorem EncUnit.ok_iff_pending (e : EncUnit) : e.Ok ↔ ∃ acc n : Nat, n ≤ 4 ∧ e = pending acc n := by
  constructor
  · rintro ⟨within, fits⟩
    refine ⟨e.acc.toNat, e.cnt.toNat, within, ?_⟩
    rw [pending, Nat.mod_eq_of_lt fits, BitVec.ofNat_toNat, BitVec.ofNat_toNat, BitVec.setWidth_eq, BitVec.setWidth_eq]
  · rintro ⟨acc, n, within, rfl⟩
    rw [EncUnit.Ok, pending_cnt acc within, pending_acc acc within]
    exact ⟨within, Nat.mod_lt _ (Nat.two_pow_pos n)⟩

/-- DEC's invariant without sticky error says that its buffer is some pending bits (R28, R31). -/
theorem DecUnit.ok_iff_pending {cw : Nat} (d : DecUnit cw) :
    d.Ok ∧ d.err = false ↔ ∃ acc n : Nat, n ≤ 7 ∧ d = pending acc n := by
  constructor
  · rintro ⟨⟨fits, -, noChar⟩, clear⟩
    refine ⟨d.acc.toNat, d.cnt.toNat, Nat.le_of_lt_succ d.cnt.isLt, ?_⟩
    rw [pending, Nat.mod_eq_of_lt fits, BitVec.ofNat_toNat, BitVec.ofNat_toNat, BitVec.setWidth_eq, BitVec.setWidth_eq,
      ← clear, ← noChar clear]
  · rintro ⟨acc, n, within, rfl⟩
    rw [DecUnit.Ok, pending_cnt acc within, pending_acc acc within]
    exact ⟨⟨Nat.mod_lt _ (Nat.two_pow_pos n), nofun, fun _ => rfl⟩, rfl⟩

end Machine

end Sys2Proof

namespace Sys2Proof.Codec

open Sys2Proof.Machine

variable {cw : Nat}

/-- ENC.BYTE behind fewer than 2 pending bits: one symbol, as the unbounded accumulator gives it (R43, R101). -/
theorem encByte_pending_one (p : CodecParams cw) {s : State cw} (b : Byte) {acc n : Nat} (he : s.enc = .pending acc n)
    (h : n < 2) :
    encByte p b s = .next
      ((s.setEnc (.pending (acc * 2 ^ 8 + b.toNat) (n + 3))).respondUnits
        [p.rom (BitVec.ofNat 5 ((acc * 2 ^ 8 + b.toNat) / 2 ^ (n + 3)))]) := by
  have cnt : s.enc.cnt.toNat = n := by rw [he, EncUnit.pending_cnt acc (by omega)]
  have bits : s.enc.acc.toNat = acc % 2 ^ n := by rw [he, EncUnit.pending_acc acc (by omega)]
  rw [encByte_one p b (by omega), cnt, bits, push_mod acc b.toNat (by omega), push_window acc b.toNat (by omega)]
  rfl

/-- ENC.BYTE behind 2 to 4 pending bits: two symbols, as the unbounded accumulator gives them (R43, R101). -/
theorem encByte_pending_two (p : CodecParams cw) {s : State cw} (b : Byte) {acc n : Nat} (he : s.enc = .pending acc n)
    (h : 2 ≤ n) (h4 : n ≤ 4) :
    encByte p b s = .next
      ((s.setEnc (.pending (acc * 2 ^ 8 + b.toNat) (n - 2))).respondUnits
        [p.rom (BitVec.ofNat 5 ((acc * 2 ^ 8 + b.toNat) / 2 ^ (n + 3))),
          p.rom (BitVec.ofNat 5 ((acc * 2 ^ 8 + b.toNat) / 2 ^ (n - 2)))]) := by
  have cnt : s.enc.cnt.toNat = n := by rw [he, EncUnit.pending_cnt acc h4]
  have bits : s.enc.acc.toNat = acc % 2 ^ n := by rw [he, EncUnit.pending_acc acc h4]
  rw [encByte_two p b (by omega) (by omega), cnt, bits, push_mod acc b.toNat (by omega),
    push_window acc b.toNat (by omega), push_window acc b.toNat (by omega)]
  rfl

/-- ENC.END with n pending bits: the partial symbol of the unbounded accumulator, or none (R43, R102). -/
theorem encEnd_pending (p : CodecParams cw) {s : State cw} {acc n : Nat} (he : s.enc = .pending acc n) (h : n ≤ 4) :
    encEnd p s = .next ((s.setEnc EncUnit.idle).respondUnits
      (if 0 < n then [p.rom (BitVec.ofNat 5 (acc * 2 ^ (5 - n)))] else [])) := by
  have cnt : s.enc.cnt.toNat = n := by rw [he, EncUnit.pending_cnt acc h]
  have bits : s.enc.acc.toNat = acc % 2 ^ n := by rw [he, EncUnit.pending_acc acc h]
  by_cases empty : n = 0
  · rw [encEnd_empty p (BitVec.eq_of_toNat_eq (cnt.trans empty)), if_neg (by omega)]
  · have pending : s.enc.cnt ≠ 0 := fun zero => empty (by rw [← cnt, zero]; rfl)
    have padded : BitVec.ofNat 5 (acc % 2 ^ n * 2 ^ (5 - n)) = BitVec.ofNat 5 (acc * 2 ^ (5 - n)) := by
      apply BitVec.eq_of_toNat_eq
      rw [BitVec.toNat_ofNat, BitVec.toNat_ofNat]
      exact push_mod acc 0 (by omega)
    rw [encEnd_partial p pending (by omega), encPartial_eq_ofNat, cnt, bits, padded, if_pos (by omega)]

/-- A hit behind fewer than 3 pending bits: no byte (R43, R131). -/
theorem decChar_pending_quiet {p : CodecParams cw} {s : State cw} {c : BitVec cw} {acc n : Nat}
    (hd : s.dec = .pending acc n) (hit : (p.inv c).hit = true) (h : n < 3) :
    decChar p c s = .next
      ((s.setDec (.pending (acc * 2 ^ 5 + (p.inv c).idx.toNat) (n + 5))).respondUnits []) := by
  have ⟨ok, clear⟩ := (DecUnit.ok_iff_pending s.dec).mpr ⟨acc, n, by omega, hd⟩
  have cnt : s.dec.cnt.toNat = n := by rw [hd, DecUnit.pending_cnt acc (by omega)]
  have bits : s.dec.acc.toNat = acc % 2 ^ n := by rw [hd, DecUnit.pending_acc acc (by omega)]
  have fits : acc % 2 ^ n * 2 ^ 5 + (p.inv c).idx.toNat < 2 ^ (n + 5) := by
    have low := Nat.mod_lt acc (Nat.two_pow_pos n)
    have value := (p.inv c).idx.isLt
    rw [Nat.pow_add]
    omega
  rw [decChar_quiet clear hit ok (by omega), cnt, bits, ← Nat.mod_eq_of_lt fits, push_mod acc _ le_rfl]
  rfl

/-- A hit behind at least 3 pending bits: a byte, as the unbounded accumulator gives it (R43, R131). -/
theorem decChar_pending_emits {p : CodecParams cw} {s : State cw} {c : BitVec cw} {acc n : Nat}
    (hd : s.dec = .pending acc n) (hit : (p.inv c).hit = true) (h : 3 ≤ n) (h7 : n ≤ 7) :
    decChar p c s = .next
      ((s.setDec (.pending (acc * 2 ^ 5 + (p.inv c).idx.toNat) (n - 3))).respondUnits
        [BitVec.ofNat 8 ((acc * 2 ^ 5 + (p.inv c).idx.toNat) / 2 ^ (n - 3))]) := by
  have ⟨ok, clear⟩ := (DecUnit.ok_iff_pending s.dec).mpr ⟨acc, n, h7, hd⟩
  have cnt : s.dec.cnt.toNat = n := by rw [hd, DecUnit.pending_cnt acc h7]
  have bits : s.dec.acc.toNat = acc % 2 ^ n := by rw [hd, DecUnit.pending_acc acc h7]
  rw [decChar_emits clear hit ok (by omega), cnt, bits, push_mod acc _ (by omega), push_window acc _ (by omega)]
  rfl

end Sys2Proof.Codec
end

section
/-! PROOFS. Every step keeps the invariants (spec 10_state.md R20, R26 to R35; 30_encoding.md R77 to R79), and STATUS where
they hold (43_utility.md R191): O58, O42 and O29. -/

namespace Sys2Proof.Codec

open Sys2Proof.Machine

variable {cw : Nat} {p : CodecParams cw} {s t : State cw}

/-- ENC.BYTE keeps ENC's invariant: it leaves 3 bits more, or 2 fewer, of the longer buffer pending (R26, R27). -/
theorem encByte_keeps_ok {b : Byte} (ok : s.enc.Ok) (ran : encByte p b s = .next t) : t.enc.Ok := by
  obtain ⟨acc, n, within, held⟩ := s.enc.ok_iff_pending.mp ok
  rcases Nat.lt_or_ge n 2 with one | two
  · obtain rfl := Host.Outcome.next.inj ((encByte_pending_one p b held one).symm.trans ran)
    exact (EncUnit.ok_iff_pending _).mpr ⟨_, _, by omega, rfl⟩
  · obtain rfl := Host.Outcome.next.inj ((encByte_pending_two p b held two within).symm.trans ran)
    exact (EncUnit.ok_iff_pending _).mpr ⟨_, _, by omega, rfl⟩

/-- ENC.END keeps ENC's invariant: it leaves ENC idle (R102). -/
theorem encEnd_keeps_ok (ok : s.enc.Ok) (ran : encEnd p s = .next t) : t.enc.Ok := by
  obtain ⟨acc, n, within, held⟩ := s.enc.ok_iff_pending.mp ok
  obtain rfl := Host.Outcome.next.inj ((encEnd_pending p held within).symm.trans ran)
  exact EncUnit.idle_ok

/-- Every command keeps ENC's invariant (R26, R27). -/
theorem command_keeps_enc_ok {o : Opcode} {x : BitVec 24} (ok : s.enc.Ok) (ran : command p o x s = .next t) : t.enc.Ok := by
  by_cases unit : o.codecUnit = .enc
  · cases o with
    | encByte => exact encByte_keeps_ok ok ran
    | encEnd => exact encEnd_keeps_ok ok ran
    | encClear =>
      obtain rfl := Host.Outcome.next.inj ran
      exact EncUnit.idle_ok
    | _ => cases unit
  · obtain ⟨t1, ran1, frame⟩ := command_frame p o x s
    obtain rfl := Host.Outcome.next.inj (ran1.symm.trans ran)
    rwa [frame.enc unit]

/-- The sticky error drops the pending bits (R32, R217). -/
theorem enterDecError_ok (s : State cw) (c : BitVec cw) : (s.enterDecError c).dec.Ok := by
  rw [State.enterDecError_dec]
  exact ⟨Nat.two_pow_pos _, fun _ => ⟨rfl, rfl⟩, nofun⟩

/-- DEC.CHAR keeps DEC's invariant: it aborts, enters the sticky error, or leaves 5 bits more, or 3 fewer, of the longer
buffer pending (R28 to R32). -/
theorem decChar_keeps_ok {c : BitVec cw} (ok : s.dec.Ok) (ran : decChar p c s = .next t) : t.dec.Ok := by
  cases sticky : s.dec.err with
  | true =>
    obtain rfl := Host.Outcome.next.inj ((decChar_aborted p c sticky).symm.trans ran)
    exact ok
  | false =>
    cases hit : (p.inv c).hit with
    | false =>
      obtain rfl := Host.Outcome.next.inj ((decChar_miss sticky hit).symm.trans ran)
      exact enterDecError_ok s c
    | true =>
      obtain ⟨acc, n, within, held⟩ := s.dec.ok_iff_pending.mp ⟨ok, sticky⟩
      rcases Nat.lt_or_ge n 3 with quiet | full
      · obtain rfl := Host.Outcome.next.inj ((decChar_pending_quiet held hit quiet).symm.trans ran)
        exact ((DecUnit.ok_iff_pending _).mpr ⟨_, _, by omega, rfl⟩).1
      · obtain rfl := Host.Outcome.next.inj ((decChar_pending_emits held hit full within).symm.trans ran)
        exact ((DecUnit.ok_iff_pending _).mpr ⟨_, _, by omega, rfl⟩).1

/-- DEC.END leaves DEC idle (R132). -/
theorem decEnd_idle (ran : decEnd s = .next t) : t.dec = DecUnit.idle := by
  cases sticky : s.dec.err with
  | true =>
    obtain rfl := Host.Outcome.next.inj ((decEnd_sticky sticky).symm.trans ran)
    rfl
  | false =>
    obtain rfl := Host.Outcome.next.inj ((decEnd_ok sticky).symm.trans ran)
    rfl

/-- Every command keeps DEC's invariant (R28 to R32). -/
theorem command_keeps_dec_ok {o : Opcode} {x : BitVec 24} (ok : s.dec.Ok) (ran : command p o x s = .next t) : t.dec.Ok := by
  by_cases unit : o.codecUnit = .dec
  · cases o with
    | decChar => exact decChar_keeps_ok ok ran
    | decEnd =>
      rw [decEnd_idle ran]
      exact DecUnit.idle_ok
    | decClear =>
      obtain rfl := Host.Outcome.next.inj ran
      exact DecUnit.idle_ok
    | _ => cases unit
  · obtain ⟨t1, ran1, frame⟩ := command_frame p o x s
    obtain rfl := Host.Outcome.next.inj (ran1.symm.trans ran)
    rwa [frame.dec unit]

/-- A character with VAL_BAD = 0 after it is a hit, and leaves VAL_BADCH (R35, R162). -/
theorem scanChar_ok (p : CodecParams cw) {v : ValUnit cw} (c : BitVec cw) (ok : v.Ok) : (scanChar p v c).Ok := by
  intro good
  obtain ⟨before, hit⟩ : v.bad = false ∧ (p.inv c).hit = true := by simpa [scanChar] using good
  rw [(scanChar_bad_of_bad_or_hit (.inr hit)).2]
  exact ok before

/-- Every command keeps VAL's invariant (R35). -/
theorem command_keeps_val_ok {o : Opcode} {x : BitVec 24} (ok : s.val.Ok) (ran : command p o x s = .next t) : t.val.Ok := by
  by_cases unit : o.codecUnit = .val
  · cases o with
    | valChar =>
      obtain rfl := Host.Outcome.next.inj ran
      exact scanChar_ok p _ ok
    | valEnd | valClear =>
      obtain rfl := Host.Outcome.next.inj ran
      exact ValUnit.idle_ok
    | _ => cases unit
  · obtain ⟨t1, ran1, frame⟩ := command_frame p o x s
    obtain rfl := Host.Outcome.next.inj (ran1.symm.trans ran)
    rwa [frame.val unit]

/-- Every command responds with some of the statuses and a COUNT of at most 2 (R215). -/
theorem command_answers (p : CodecParams cw) (o : Opcode) (x : BitVec 24) (s : State cw) :
    ∃ sts : List RspStatus, Answers sts (command p o x s) := by
  cases o with
  | encByte => exact ⟨_, encByte_answers p _ s⟩
  | encEnd => exact ⟨_, encEnd_answers p s⟩
  | decChar => exact ⟨_, decChar_answers p _ s⟩
  | decEnd => exact ⟨_, decEnd_answers s⟩
  | valEnd => exact ⟨_, valEnd_answers s⟩
  | alphaRead => exact ⟨_, answers_respondUnits (us := [_]) (List.mem_singleton_self _) s (by simp)⟩
  | encClear | decClear | valChar | valClear | status => exact ⟨[.ok], answers_respond _ (List.mem_singleton_self _) _⟩

/-- Every command keeps the invariants. -/
theorem command_keeps_inv {o : Opcode} {x : BitVec 24} (inv : s.Inv) (ran : command p o x s = .next t) : t.Inv := by
  obtain ⟨enc, dec, val, -⟩ := inv
  obtain ⟨sts, answer⟩ := command_answers p o x s
  rw [ran] at answer
  exact ⟨command_keeps_enc_ok enc ran, command_keeps_dec_ok dec ran, command_keeps_val_ok val ran, answer.response.1⟩

/-- Every word, legal or not, keeps the invariants. -/
theorem runCommand_keeps_inv {w : Word} (inv : s.Inv) (ran : runCommand p w s = .next t) : t.Inv := by
  rcases runCommand_cases p w with ⟨o, x, legal⟩ | illegal
  · exact command_keeps_inv inv ((congrFun legal s).symm.trans ran)
  · obtain rfl := Host.Outcome.next.inj ((congrFun illegal s).symm.trans ran)
    obtain ⟨enc, dec, val, -⟩ := inv
    exact ⟨enc, dec, val, responseOk_info .illegalCommand _⟩

/-- A reset leaves the reset values, which meet the invariants (R40). -/
theorem resetRegisters_inv (s : State cw) : s.resetRegisters.Inv := by
  refine ⟨EncUnit.idle_ok, DecUnit.idle_ok, ValUnit.idle_ok, ?_⟩
  rw [State.resetRegisters_rsp, RspReg.empty_data]
  exact responseOk_info .ok 0

/-- Every edge keeps the invariants: only a reset and an accepted command write what they speak of. -/
theorem step_keeps_inv (inv : s.Inv) (stepped : step p s = .next t) : t.Inv := by
  rw [step] at stepped
  rcases edgeWith_cases (run := runCommand p) s.nextSample s.popSample with ⟨-, edge⟩ | ⟨-, -, edge⟩ | ⟨-, -, -, edge⟩ |
    ⟨-, -, -, edge⟩
  · obtain rfl := Host.Outcome.next.inj (edge.symm.trans stepped)
    exact resetRegisters_inv _
  · exact runCommand_keeps_inv (s := s.popSample.recordTaken s.nextSample) inv (edge.symm.trans stepped)
  · obtain rfl := Host.Outcome.next.inj (edge.symm.trans stepped)
    exact inv
  · obtain rfl := Host.Outcome.next.inj (edge.symm.trans stepped)
    exact inv

/-- Settles O58: the invariants of the units and of the response register are kept by every command and every edge. -/
theorem everyStepOfAnyParametersKeepsTheInvariants : Obligations.EveryStepOfAnyParametersKeepsTheInvariants :=
  fun _ _ _ _ _ inv stepped => step_keeps_inv inv stepped

end Sys2Proof.Codec

namespace Sys2Proof.Machine

open Sys2Proof.Codec

/-- Settles O42: B32C's step is that of the block with its parameters. -/
theorem everyStepKeepsTheInvariants : Obligations.EveryStepKeepsTheInvariants :=
  fun s _ inv stepped => step_keeps_inv inv ((step_eq_codec s).symm.trans stepped)

/-- ENC is idle exactly when it has no bit pending, where its invariant holds (R41). -/
theorem EncUnit.eq_idle_iff {e : EncUnit} (ok : e.Ok) : e = EncUnit.idle ↔ e.cnt.toNat = 0 := by
  constructor
  · rintro rfl
    rfl
  · intro none_pending
    obtain ⟨-, fits⟩ := ok
    rw [none_pending] at fits
    exact congrArg₂ EncUnit.mk (BitVec.eq_of_toNat_eq (Nat.lt_one_iff.mp fits)) (BitVec.eq_of_toNat_eq none_pending)

/-- DEC is idle exactly when it has no bit pending and no sticky error, where its invariant holds (R41). -/
theorem DecUnit.eq_idle_iff {cw : Nat} {d : DecUnit cw} (ok : d.Ok) :
    d = DecUnit.idle ↔ d.cnt.toNat = 0 ∧ d.err = false := by
  constructor
  · rintro rfl
    exact ⟨rfl, rfl⟩
  · rintro ⟨none_pending, clear⟩
    obtain ⟨acc, n, within, rfl⟩ := d.ok_iff_pending.mp ⟨ok, clear⟩
    rw [pending_cnt acc within] at none_pending
    rw [none_pending, idle_eq_pending, pending, pow_zero, Nat.mod_one]
    rfl

/-- VAL is idle exactly when both of its flags are 0, where its invariant holds (R41). -/
theorem ValUnit.eq_idle_iff {cw : Nat} {v : ValUnit cw} (ok : v.Ok) : v = ValUnit.idle ↔ v.seen = false ∧ v.bad = false := by
  constructor
  · rintro rfl
    exact ⟨rfl, rfl⟩
  · rintro ⟨unseen, good⟩
    have noChar := ok good
    obtain ⟨seen, bad, badch⟩ := v
    exact congr (congrArg₂ ValUnit.mk unseen good) noChar

/-- Settles O29: DATA is 0 when all the counts and flags are, which is when every unit is idle. -/
theorem statusIsZeroExactlyWhenIdle : Obligations.StatusIsZeroExactlyWhenIdle := by
  intro s t ⟨enc, dec, val, _⟩ ran
  obtain rfl := Host.Outcome.next.inj ran
  rw [State.respond_rsp, rspInfo_respWord, ← BitVec.toNat_inj, toNat_statusInfo, State.AllIdle, EncUnit.eq_idle_iff enc,
    DecUnit.eq_idle_iff dec, ValUnit.eq_idle_iff val]
  simp only [← Bool.toNat_eq_zero]
  show _ = 0 ↔ _
  omega

end Sys2Proof.Machine
end

section
/-! PROOFS. What a command reads, and interleaved messages (spec 10_state.md R42; 40_encoder.md R104, 42_validator.md R169):
O31 and O32. -/

namespace Sys2Proof.Codec

open Sys2Proof.Machine

variable {cw : Nat} {p : CodecParams cw} {s1 s2 t1 t2 : State cw}

/-- Two states agree on the unit's registers; the utility commands have none. -/
def State.SameUnit (u : CodecUnit) (s1 s2 : State cw) : Prop :=
  match u with
  | .enc => s1.enc = s2.enc
  | .dec => s1.dec = s2.dec
  | .val => s1.val = s2.val
  | .utility => True

/-- ENC.BYTE's registers and response are those that ENC's pending bits give (R42, R101). -/
theorem encByte_reads {b : Byte} (ok : s1.enc.Ok) (same : s1.enc = s2.enc) (ran1 : encByte p b s1 = .next t1)
    (ran2 : encByte p b s2 = .next t2) : t1.enc = t2.enc ∧ t1.rsp = t2.rsp := by
  obtain ⟨acc, n, within, held⟩ := s1.enc.ok_iff_pending.mp ok
  rcases Nat.lt_or_ge n 2 with one | two
  · obtain rfl := Host.Outcome.next.inj ((encByte_pending_one p b held one).symm.trans ran1)
    obtain rfl := Host.Outcome.next.inj ((encByte_pending_one p b (same ▸ held) one).symm.trans ran2)
    exact ⟨rfl, rfl⟩
  · obtain rfl := Host.Outcome.next.inj ((encByte_pending_two p b held two within).symm.trans ran1)
    obtain rfl := Host.Outcome.next.inj ((encByte_pending_two p b (same ▸ held) two within).symm.trans ran2)
    exact ⟨rfl, rfl⟩

/-- ENC.END's registers and response are those that ENC's pending bits give (R42, R102). -/
theorem encEnd_reads (ok : s1.enc.Ok) (same : s1.enc = s2.enc) (ran1 : encEnd p s1 = .next t1)
    (ran2 : encEnd p s2 = .next t2) : t1.enc = t2.enc ∧ t1.rsp = t2.rsp := by
  obtain ⟨acc, n, within, held⟩ := s1.enc.ok_iff_pending.mp ok
  obtain rfl := Host.Outcome.next.inj ((encEnd_pending p held within).symm.trans ran1)
  obtain rfl := Host.Outcome.next.inj ((encEnd_pending p (same ▸ held) within).symm.trans ran2)
  exact ⟨rfl, rfl⟩

/-- An ENC command's registers and response depend on ENC alone (R42). -/
theorem command_reads_enc {o : Opcode} {x : BitVec 24} (unit : o.codecUnit = .enc) (ok : s1.enc.Ok) (same : s1.enc = s2.enc)
    (ran1 : command p o x s1 = .next t1) (ran2 : command p o x s2 = .next t2) : t1.enc = t2.enc ∧ t1.rsp = t2.rsp := by
  cases o with
  | encByte => exact encByte_reads ok same ran1 ran2
  | encEnd => exact encEnd_reads ok same ran1 ran2
  | encClear =>
    obtain rfl := Host.Outcome.next.inj ran1
    obtain rfl := Host.Outcome.next.inj ran2
    exact ⟨rfl, rfl⟩
  | _ => cases unit

/-- DEC.CHAR's registers and response are those that the sticky error, the lookup and DEC's pending bits give (R42, R131). -/
theorem decChar_reads {c : BitVec cw} (ok : s1.dec.Ok) (same : s1.dec = s2.dec) (ran1 : decChar p c s1 = .next t1)
    (ran2 : decChar p c s2 = .next t2) : t1.dec = t2.dec ∧ t1.rsp = t2.rsp := by
  cases sticky : s1.dec.err with
  | true =>
    obtain rfl := Host.Outcome.next.inj ((decChar_aborted p c sticky).symm.trans ran1)
    obtain rfl := Host.Outcome.next.inj ((decChar_aborted p c (same ▸ sticky)).symm.trans ran2)
    exact ⟨same, rfl⟩
  | false =>
    cases hit : (p.inv c).hit with
    | false =>
      obtain rfl := Host.Outcome.next.inj ((decChar_miss sticky hit).symm.trans ran1)
      obtain rfl := Host.Outcome.next.inj ((decChar_miss (same ▸ sticky) hit).symm.trans ran2)
      exact ⟨rfl, rfl⟩
    | true =>
      obtain ⟨acc, n, within, held⟩ := s1.dec.ok_iff_pending.mp ⟨ok, sticky⟩
      rcases Nat.lt_or_ge n 3 with quiet | full
      · obtain rfl := Host.Outcome.next.inj ((decChar_pending_quiet held hit quiet).symm.trans ran1)
        obtain rfl := Host.Outcome.next.inj ((decChar_pending_quiet (same ▸ held) hit quiet).symm.trans ran2)
        exact ⟨rfl, rfl⟩
      · obtain rfl := Host.Outcome.next.inj ((decChar_pending_emits held hit full within).symm.trans ran1)
        obtain rfl := Host.Outcome.next.inj ((decChar_pending_emits (same ▸ held) hit full within).symm.trans ran2)
        exact ⟨rfl, rfl⟩

/-- DEC.END's response is the verdict that DEC holds (R42, R132). -/
theorem decEnd_reads (same : s1.dec = s2.dec) (ran1 : decEnd s1 = .next t1) (ran2 : decEnd s2 = .next t2) :
    t1.dec = t2.dec ∧ t1.rsp = t2.rsp := by
  cases sticky : s1.dec.err with
  | true =>
    obtain rfl := Host.Outcome.next.inj ((decEnd_sticky sticky).symm.trans ran1)
    obtain rfl := Host.Outcome.next.inj ((decEnd_sticky (same ▸ sticky)).symm.trans ran2)
    exact ⟨rfl, by rw [same]; rfl⟩
  | false =>
    obtain rfl := Host.Outcome.next.inj ((decEnd_ok sticky).symm.trans ran1)
    obtain rfl := Host.Outcome.next.inj ((decEnd_ok (same ▸ sticky)).symm.trans ran2)
    exact ⟨rfl, by rw [same]; rfl⟩

/-- A DEC command's registers and response depend on DEC alone (R42). -/
theorem command_reads_dec {o : Opcode} {x : BitVec 24} (unit : o.codecUnit = .dec) (ok : s1.dec.Ok) (same : s1.dec = s2.dec)
    (ran1 : command p o x s1 = .next t1) (ran2 : command p o x s2 = .next t2) : t1.dec = t2.dec ∧ t1.rsp = t2.rsp := by
  cases o with
  | decChar => exact decChar_reads ok same ran1 ran2
  | decEnd => exact decEnd_reads same ran1 ran2
  | decClear =>
    obtain rfl := Host.Outcome.next.inj ran1
    obtain rfl := Host.Outcome.next.inj ran2
    exact ⟨rfl, rfl⟩
  | _ => cases unit

/-- A VAL command's registers and response depend on VAL alone (R42). -/
theorem command_reads_val {o : Opcode} {x : BitVec 24} (unit : o.codecUnit = .val) (same : s1.val = s2.val)
    (ran1 : command p o x s1 = .next t1) (ran2 : command p o x s2 = .next t2) : t1.val = t2.val ∧ t1.rsp = t2.rsp := by
  cases o with
  | valChar | valEnd | valClear =>
    obtain rfl := Host.Outcome.next.inj ran1
    obtain rfl := Host.Outcome.next.inj ran2
    exact ⟨by simp [same], by simp [same]⟩
  | _ => cases unit

/-- A unit's command on two states that agree on the unit leaves it alike and responds alike, where the invariants hold. -/
theorem command_reads_unit {o : Opcode} {x : BitVec 24} {u : CodecUnit} (isUnit : u ≠ .utility) (mine : o.codecUnit = u)
    (inv : s1.Inv) (same : s1.SameUnit u s2) (ran1 : command p o x s1 = .next t1) (ran2 : command p o x s2 = .next t2) :
    t1.SameUnit u t2 ∧ t1.rsp = t2.rsp := by
  obtain ⟨enc, dec, -, -⟩ := inv
  cases u with
  | enc => exact command_reads_enc mine enc same ran1 ran2
  | dec => exact command_reads_dec mine dec same ran1 ran2
  | val => exact command_reads_val mine same ran1 ran2
  | utility => exact absurd rfl isUnit

/-- A command of another unit leaves the unit as it was. -/
theorem Frame.sameUnit {u v : CodecUnit} (frame : Frame v s1 t1) (other : v ≠ u) : t1.SameUnit u s1 := by
  cases u with
  | enc => exact frame.enc other
  | dec => exact frame.dec other
  | val => exact frame.val other
  | utility => trivial

theorem State.SameUnit.refl (u : CodecUnit) (s : State cw) : s.SameUnit u s := by
  cases u with
  | enc | dec | val => exact Eq.refl _
  | utility => trivial

theorem State.SameUnit.trans {u : CodecUnit} {s3 : State cw} (h1 : s1.SameUnit u s2) (h2 : s2.SameUnit u s3) :
    s1.SameUnit u s3 := by
  cases u with
  | enc | dec | val => exact Eq.trans h1 h2
  | utility => trivial

end Sys2Proof.Codec

namespace Sys2Proof.Machine

open Sys2Proof.Codec

/-- Settles O31: each unit's commands read the unit's pending bits and flags only. -/
theorem commandsReadOnlyTheirUnit : Obligations.CommandsReadOnlyTheirUnit := by
  intro i s1 s2 t1 t2 ran1 ran2
  rw [exec_eq_command] at ran1 ran2
  exact ⟨fun unit ok same => command_reads_enc unit ok same ran1 ran2,
    fun unit ok same => command_reads_dec unit ok same ran1 ran2, fun unit same => command_reads_val unit same ran1 ran2⟩

/-- The unit's commands of a list. -/
def commandsOf (u : CodecUnit) (is : List Instr) : List Instr :=
  is.filter (fun i => i.codecUnit == u)

/-- The responses to the unit's commands of a list. -/
def responsesOf (u : CodecUnit) (is : List Instr) (rs : List Word) : List Word :=
  ((is.zip rs).filter (fun x => x.1.codecUnit == u)).map Prod.snd

theorem commandsOf_cons_own {u : CodecUnit} {i : Instr} (mine : i.codecUnit = u) (is : List Instr) :
    commandsOf u (i :: is) = i :: commandsOf u is := by
  simp [commandsOf, mine]

theorem commandsOf_cons_other {u : CodecUnit} {i : Instr} (other : i.codecUnit ≠ u) (is : List Instr) :
    commandsOf u (i :: is) = commandsOf u is := by
  simp [commandsOf, other]

theorem responsesOf_cons_own {u : CodecUnit} {i : Instr} (mine : i.codecUnit = u) (is : List Instr) (r : Word)
    (rs : List Word) : responsesOf u (i :: is) (r :: rs) = r :: responsesOf u is rs := by
  simp [responsesOf, mine]

theorem responsesOf_cons_other {u : CodecUnit} {i : Instr} (other : i.codecUnit ≠ u) (is : List Instr) (r : Word)
    (rs : List Word) : responsesOf u (i :: is) (r :: rs) = responsesOf u is rs := by
  simp [responsesOf, other]

/-- The unit's commands of a run, run alone from a state that agrees on the unit, respond as in the run and leave the unit as
the run does (R42). -/
theorem runCommands_commandsOf {u : CodecUnit} (isUnit : u ≠ .utility) (is : List Instr) {s t s1 : State} {rs : List Word}
    (inv : s.Inv) (same : s.SameUnit u s1) (ran : runCommands (is.map encode) s = .next (rs, t)) :
    ∃ t1 : State, runCommands ((commandsOf u is).map encode) s1 = .next (responsesOf u is rs, t1) ∧ t.SameUnit u t1 := by
  induction is generalizing s s1 rs with
  | nil =>
    cases ran
    exact ⟨s1, rfl, same⟩
  | cons i is ih =>
    obtain ⟨s2, rs, head, rest, rfl⟩ := runCommands_cons_inv ran
    rw [runCommand_encode, exec_eq_command] at head
    have inv2 := command_keeps_inv inv head
    by_cases mine : i.codecUnit = u
    · obtain ⟨s3, alone, -⟩ := command_frame b32c i.opcode i.operand s1
      obtain ⟨same2, response⟩ := command_reads_unit isUnit mine inv same head alone
      obtain ⟨t1, ran1, same3⟩ := ih inv2 same2 rest
      rw [← exec_eq_command, ← runCommand_encode] at alone
      rw [commandsOf_cons_own mine, responsesOf_cons_own mine, response]
      exact ⟨t1, runCommands_cons alone ran1, same3⟩
    · obtain ⟨s2', ran2, frame⟩ := command_frame b32c i.opcode i.operand s
      obtain rfl := Host.Outcome.next.inj (ran2.symm.trans head)
      rw [commandsOf_cons_other mine, responsesOf_cons_other mine]
      exact ih inv2 ((frame.sameUnit mine).trans same) rest

/-- Settles O32: the run of the unit's commands starts from the same state, so it agrees with the whole run on the unit. -/
theorem interleavedMessagesDoNotDisturbEachOther : Obligations.InterleavedMessagesDoNotDisturbEachOther := by
  intro is s t rs inv ran u isUnit
  obtain ⟨t1, alone, same⟩ := runCommands_commandsOf isUnit is inv (State.SameUnit.refl u s) ran
  refine ⟨t1, alone, ?_, ?_, ?_⟩ <;> rintro rfl <;> exact Eq.symm same

end Sys2Proof.Machine
end

section
/-! PROOFS. The port over many edges is the run of the accepted commands (spec 20_memory.md R60, 30_encoding.md R73): O40. -/

namespace Sys2Proof.Codec

open Sys2Proof.Machine

variable {cw : Nat} {p : CodecParams cw} {s t : State cw}

/-- The same units and free values' index, with another response register, waveform and host's record. -/
def State.withHost (s : State cw) (r : RspReg) (ps : List PortSample) (k : List (BitVec 32)) : State cw :=
  { s with rsp := r, port := ps, taken := k }

/-- ENC.BYTE reads nothing of the port's or the host's (R42, R73). -/
theorem encByte_withHost {b : Byte} (ran : encByte p b s = .next t) (r : RspReg) (ps : List PortSample)
    (k : List (BitVec 32)) : encByte p b (s.withHost r ps k) = .next (t.withHost t.rsp ps k) := by
  rcases Nat.lt_or_ge 4 s.enc.cnt.toNat with outside | within
  · obtain rfl := Host.Outcome.next.inj ((encByte_outside p b outside).symm.trans ran)
    exact encByte_outside p b outside
  · obtain rfl := Host.Outcome.next.inj ((encByte_within p b within).symm.trans ran)
    exact encByte_within p b within

/-- ENC.END reads nothing of the port's or the host's (R42, R73). -/
theorem encEnd_withHost (ran : encEnd p s = .next t) (r : RspReg) (ps : List PortSample) (k : List (BitVec 32)) :
    encEnd p (s.withHost r ps k) = .next (t.withHost t.rsp ps k) := by
  by_cases empty : s.enc.cnt = 0
  · obtain rfl := Host.Outcome.next.inj ((encEnd_empty p empty).symm.trans ran)
    exact encEnd_empty p empty
  · rcases Nat.lt_or_ge 4 s.enc.cnt.toNat with outside | within
    · obtain rfl := Host.Outcome.next.inj ((encEnd_outside p outside).symm.trans ran)
      exact encEnd_outside p outside
    · obtain rfl := Host.Outcome.next.inj ((encEnd_partial p empty within).symm.trans ran)
      exact encEnd_partial p empty within

/-- The fold of a hit reads nothing of the port's or the host's (R42, R73). -/
theorem foldSymbol_withHost (s : State cw) (v : Symbol) (r : RspReg) (ps : List PortSample) (k : List (BitVec 32)) :
    (s.withHost r ps k).foldSymbol v = (s.foldSymbol v).withHost (s.foldSymbol v).rsp ps k := by
  rcases Nat.lt_or_ge s.dec.cnt.toNat 3 with quiet | full
  · rcases Nat.lt_or_ge s.dec.acc.toNat (2 ^ s.dec.cnt.toNat) with fits | stray
    · rw [foldSymbol_quiet v quiet fits]
      exact foldSymbol_quiet v quiet fits
    · rw [foldSymbol_outside v quiet stray]
      exact foldSymbol_outside v quiet stray
  · rw [foldSymbol_emits v full]
    exact foldSymbol_emits v full

/-- DEC.CHAR reads nothing of the port's or the host's (R42, R73). -/
theorem decChar_withHost {c : BitVec cw} (ran : decChar p c s = .next t) (r : RspReg) (ps : List PortSample)
    (k : List (BitVec 32)) : decChar p c (s.withHost r ps k) = .next (t.withHost t.rsp ps k) := by
  cases sticky : s.dec.err with
  | true =>
    obtain rfl := Host.Outcome.next.inj ((decChar_aborted p c sticky).symm.trans ran)
    exact decChar_aborted p c sticky
  | false =>
    cases hit : (p.inv c).hit with
    | false =>
      obtain rfl := Host.Outcome.next.inj ((decChar_miss sticky hit).symm.trans ran)
      exact decChar_miss sticky hit
    | true =>
      obtain rfl := Host.Outcome.next.inj ((decChar_hit sticky hit).symm.trans ran)
      rw [← foldSymbol_withHost]
      exact decChar_hit sticky hit

/-- DEC.END reads nothing of the port's or the host's (R42, R73). -/
theorem decEnd_withHost (ran : decEnd s = .next t) (r : RspReg) (ps : List PortSample) (k : List (BitVec 32)) :
    decEnd (s.withHost r ps k) = .next (t.withHost t.rsp ps k) := by
  cases sticky : s.dec.err with
  | true =>
    obtain rfl := Host.Outcome.next.inj ((decEnd_sticky sticky).symm.trans ran)
    exact decEnd_sticky sticky
  | false =>
    obtain rfl := Host.Outcome.next.inj ((decEnd_ok sticky).symm.trans ran)
    exact decEnd_ok sticky

/-- No command reads the response register, the waveform or the host's record (R42, R73). -/
theorem command_withHost {o : Opcode} {x : BitVec 24} (ran : command p o x s = .next t) (r : RspReg) (ps : List PortSample)
    (k : List (BitVec 32)) : command p o x (s.withHost r ps k) = .next (t.withHost t.rsp ps k) := by
  cases o with
  | encByte => exact encByte_withHost ran r ps k
  | encEnd => exact encEnd_withHost ran r ps k
  | decChar => exact decChar_withHost ran r ps k
  | decEnd => exact decEnd_withHost ran r ps k
  | encClear | decClear | valChar | valEnd | valClear | alphaRead | status =>
    obtain rfl := Host.Outcome.next.inj ran
    rfl

/-- No word, legal or not, reads the response register, the waveform or the host's record (R73). -/
theorem runCommand_withHost {w : Word} (ran : runCommand p w s = .next t) (r : RspReg) (ps : List PortSample)
    (k : List (BitVec 32)) : runCommand p w (s.withHost r ps k) = .next (t.withHost t.rsp ps k) := by
  rcases runCommand_cases p w with ⟨o, x, legal⟩ | illegal
  · rw [legal] at ran ⊢
    exact command_withHost ran r ps k
  · rw [illegal] at ran ⊢
    obtain rfl := Host.Outcome.next.inj ran
    rfl

/-- A run has one response for each command (R60). -/
theorem runWith_length {run : Word → State cw → Host.Outcome (State cw) Fault Refusal} {ws : List Word} {rs : List Word}
    (ran : runWith run ws s = .next (rs, t)) : rs.length = ws.length := by
  induction ws generalizing s rs with
  | nil =>
    cases ran
    rfl
  | cons w ws ih =>
    obtain ⟨s1, rs, -, rest, rfl⟩ := runWith_cons_inv ran
    rw [List.length_cons, List.length_cons, ih rest]

/-- The first k samples after the next edge's are among the first k + 1. -/
theorem mem_take_succ_of_mem_take_tail {q : PortSample} {l : List PortSample} {k : Nat} (h : q ∈ l.tail.take k) :
    q ∈ l.take (k + 1) := by
  cases l with
  | nil => simp at h
  | cons a l => exact List.mem_cons_of_mem a h

/-- The sample of the next edge is one of the first of the listed ones, or an idle host's (log entry 2). -/
theorem nextSample_rst {k : Nat} (noReset : ∀ q ∈ s.port.take (k + 1), q.rst = false) : s.nextSample.rst = false := by
  cases listed : s.port with
  | nil =>
    rw [nextSample_of_port_nil listed]
    rfl
  | cons q rest =>
    rw [listed] at noReset
    rw [State.nextSample, listed]
    exact noReset q List.mem_cons_self

end Sys2Proof.Codec

namespace Sys2Proof.Machine

open Sys2Proof.Codec

theorem responses_of_valid {s : State} (h : s.rsp.valid = true) : s.responses = s.taken ++ [s.rsp.data] := by
  rw [State.responses, if_pos h]

theorem responses_of_not_valid {s : State} (h : s.rsp.valid = false) : s.responses = s.taken := by
  rw [State.responses, h]
  rfl

/-- Recording the taken response before a command replaces it leaves the host with the responses given so far (R71). -/
theorem recordTaken_of_accepts {q : PortSample} {s : State} (h : accepts q s = true) : (s.recordTaken q).taken = s.responses := by
  rw [State.recordTaken_taken, takes_of_accepts h, State.responses]

/-- Taking a response does not change which responses were given (R71). -/
theorem responses_of_takes {q : PortSample} {s : State} (h : takes q s = true) :
    State.responses (s.recordTaken q).dropResponse = s.responses := by
  have waits : s.rsp.valid = true := (Bool.and_eq_true_iff.mp h).1
  rw [responses_of_valid waits, responses_of_not_valid rfl, State.dropResponse_taken, State.recordTaken_taken, if_pos h]

/-- A step without reset uses up its sample, and either runs the accepted word, which gives one more response, or changes
nothing but the response register and the host's record (R60, R72). -/
theorem step_without_reset {s : State} (noReset : s.nextSample.rst = false) :
    ∃ t : State, step s = .next t ∧ t.port = s.port.tail ∧
      ((accepts s.nextSample s.popSample = true ∧
          runCommand s.nextSample.cmdData (s.popSample.recordTaken s.nextSample) = .next t ∧
          t.responses = s.responses ++ [t.rsp.data]) ∨
        (accepts s.nextSample s.popSample = false ∧ t.responses = s.responses ∧
          ∀ r ps k, t.withHost r ps k = s.withHost r ps k)) := by
  rcases clockEdge_cases s.nextSample s.popSample with ⟨reset, -⟩ | ⟨-, accepted, edge⟩ | ⟨-, refused, taken, edge⟩ |
    ⟨-, refused, -, edge⟩
  · rw [noReset] at reset
    cases reset
  · obtain ⟨t, ran, port, record, valid⟩ :=
      Codec.runCommand_responds b32c s.nextSample.cmdData (s.popSample.recordTaken s.nextSample)
    rw [← runCommand_eq_codec] at ran
    refine ⟨t, edge.trans ran, port, .inl ⟨accepted, ran, ?_⟩⟩
    rw [responses_of_valid valid, record, recordTaken_of_accepts accepted]
    rfl
  · exact ⟨_, edge, rfl, .inr ⟨refused, responses_of_takes taken, fun _ _ _ => rfl⟩⟩
  · exact ⟨_, edge, rfl, .inr ⟨refused, rfl, fun _ _ _ => rfl⟩⟩

theorem acceptedWords_of_accepts {k : Nat} {s t : State} (stepped : step s = .next t)
    (accepted : accepts s.nextSample s.popSample = true) :
    acceptedWords (k + 1) s = s.nextSample.cmdData :: acceptedWords k t := by
  simp only [acceptedWords, stepped, accepted, if_true]

theorem acceptedWords_of_refuses {k : Nat} {s t : State} (stepped : step s = .next t)
    (refused : accepts s.nextSample s.popSample = false) : acceptedWords (k + 1) s = acceptedWords k t := by
  simp [acceptedWords, stepped, refused]

/-- Over k edges without reset, the accepted words run from the same units, whatever the response register, the waveform and
the host's record, give the responses of these edges and leave the units alike (R60, R73). -/
theorem run_eq_runCommands_acceptedWords (k : Nat) (s : State) (noReset : ∀ q ∈ s.port.take k, q.rst = false) (r : RspReg)
    (ps : List PortSample) (record : List Word) :
    ∃ (t u : State) (rs : List Word), Host.Core.run Sys2Proof.core k s = .next t ∧
      runCommands (acceptedWords k s) (s.withHost r ps record) = .next (rs, u) ∧ t.responses = s.responses ++ rs ∧
      t.enc = u.enc ∧ t.dec = u.dec ∧ t.val = u.val := by
  induction k generalizing s r with
  | zero => exact ⟨s, _, [], rfl, rfl, (List.append_nil _).symm, rfl, rfl, rfl⟩
  | succ k ih =>
    obtain ⟨s1, stepped, port, edge⟩ := step_without_reset (nextSample_rst noReset)
    have later : ∀ q ∈ s1.port.take k, q.rst = false := by
      rw [port]
      exact fun q listed => noReset q (mem_take_succ_of_mem_take_tail listed)
    rw [run_succ stepped]
    rcases edge with ⟨accepted, ran, given⟩ | ⟨refused, given, same⟩
    · obtain ⟨t, u, rs, steps, rest, responses, units⟩ := ih s1 later s1.rsp
      rw [runCommand_eq_codec] at ran
      have alone := runCommand_withHost ran r ps record
      rw [← runCommand_eq_codec] at alone
      refine ⟨t, u, s1.rsp.data :: rs, steps, ?_, ?_, units⟩
      · rw [acceptedWords_of_accepts stepped accepted]
        exact runCommands_cons (s1 := s1.withHost s1.rsp ps record) alone rest
      · rw [responses, given, List.append_assoc, List.singleton_append]
    · obtain ⟨t, u, rs, steps, rest, responses, units⟩ := ih s1 later r
      rw [same] at rest
      refine ⟨t, u, rs, steps, ?_, ?_, units⟩
      · rw [acceptedWords_of_refuses stepped refused, rest]
      · rw [responses, given]

/-- Settles O40: the accepted words run from the state itself, and a run has one response for each word. -/
theorem portRunIsTheRunOfItsAcceptedCommands : Obligations.PortRunIsTheRunOfItsAcceptedCommands := by
  intro k s noReset
  obtain ⟨t, u, rs, steps, ran, responses, units⟩ := run_eq_runCommands_acceptedWords k s noReset s.rsp s.port s.taken
  exact ⟨t, u, rs, steps, ran, runWith_length ran, responses, units⟩

end Sys2Proof.Machine
end

section
/-! PROOFS. The messages over any parameters and on B32C (spec 40_encoder.md R104; 41_decoder.md R134, R138;
42_validator.md R165): O59, O44, O45, O46 and O52. -/

namespace Sys2Proof

/-- The decoding of a message whose first response carries the given bytes. -/
def DecodeResult.prepend {cw : Nat} (us : List Byte) : DecodeResult cw → DecodeResult cw
  | .ok bytes => .ok (us ++ bytes)
  | .invalidCharacter c => .invalidCharacter c

@[simp] theorem DecodeResult.prepend_nil {cw : Nat} (r : DecodeResult cw) : r.prepend [] = r := by
  cases r <;> rfl

@[simp] theorem DecodeResult.prepend_singleton {cw : Nat} (b : Byte) (r : DecodeResult cw) : r.prepend [b] = r.cons b := by
  cases r <;> rfl

end Sys2Proof

namespace Sys2Proof.Codec

open Sys2Proof.Machine

variable {cw : Nat} {p : CodecParams cw}

/-! ## Words of a message -/

/-- A field of at most 24 bits fits a form of its width (R75). -/
theorem toNat_zext24_lt {n : Nat} (v : BitVec n) (h : n ≤ 24) : (zext24 v).toNat < 2 ^ n :=
  (BitVec.toNat_setWidth_of_le h).trans_lt v.isLt

/-- A field of at most 24 bits comes back from OPERAND (R75). -/
theorem setWidth_zext24 {n : Nat} (v : BitVec n) (h : n ≤ 24) : (zext24 v).setWidth n = v :=
  (BitVec.setWidth_setWidth_of_le v h).trans (BitVec.setWidth_eq v)

/-- The word of ENC.BYTE runs ENC.BYTE on its byte, for every CHAR_W (R83). -/
theorem runCommand_encByte (p : CodecParams cw) (b : Byte) (s : State cw) :
    runCommand p (commandWord .encByte (zext24 b)) s = encByte p b s := by
  rw [runCommand_legal p (o := .encByte) (toNat_zext24_lt b (by decide)), command, byteOperand,
    setWidth_zext24 b (by decide)]

/-- The word of DEC.CHAR runs DEC.CHAR on its character, where OPERAND holds CHAR_W bits (R83). -/
theorem runCommand_decChar (p : CodecParams cw) (h : cw ≤ 24) (c : BitVec cw) (s : State cw) :
    runCommand p (commandWord .decChar (zext24 c)) s = decChar p c s := by
  rw [runCommand_legal p (o := .decChar) (toNat_zext24_lt c h), command, charOperand, setWidth_zext24 c h]

/-- The word of VAL.CHAR runs VAL.CHAR on its character, where OPERAND holds CHAR_W bits (R83). -/
theorem runCommand_valChar (p : CodecParams cw) (h : cw ≤ 24) (c : BitVec cw) (s : State cw) :
    runCommand p (commandWord .valChar (zext24 c)) s = valChar p c s := by
  rw [runCommand_legal p (o := .valChar) (toNat_zext24_lt c h), command, charOperand, setWidth_zext24 c h]

/-- The words of the three END commands run them (R83). -/
theorem runCommand_encEnd (p : CodecParams cw) (s : State cw) : runCommand p (commandWord .encEnd 0) s = encEnd p s :=
  runCommand_legal p (o := .encEnd) (x := 0) (Nat.two_pow_pos 0) s

theorem runCommand_decEnd (p : CodecParams cw) (s : State cw) : runCommand p (commandWord .decEnd 0) s = decEnd s :=
  runCommand_legal p (o := .decEnd) (x := 0) (Nat.two_pow_pos 0) s

theorem runCommand_valEnd (p : CodecParams cw) (s : State cw) : runCommand p (commandWord .valEnd 0) s = valEnd s :=
  runCommand_legal p (o := .valEnd) (x := 0) (Nat.two_pow_pos 0) s

/-- The message's result is read off the responses of its run. -/
theorem runMessage_of_run {α : Type} {run : Word → State cw → Host.Outcome (State cw) Fault Refusal} {ws rs : List Word}
    {s t : State cw} (read : List Word → α) (h : runWith run ws s = .next (rs, t)) :
    runMessage run ws read s = .next (read rs, t) := by
  rw [runMessage, h]

/-! ## Encoding -/

/-- ENC.BYTE takes one turn of the reference loop: it emits the turn's symbols and leaves the turn's bits pending (R43, R100,
R101). -/
theorem encByte_refines (b : Byte) (bs : List Byte) {s : State cw} {acc n : Nat} (held : s.enc = .pending acc n)
    (within : n ≤ 4) :
    ∃ (t : State cw) (n1 : Nat), encByte p b s = .next t ∧ n1 ≤ 4 ∧ t.enc = .pending (acc * 2 ^ 8 + b.toNat) n1 ∧
      t.dec = s.dec ∧ t.val = s.val ∧
      encodeLoop p (b :: bs) acc n = outputUnits t.rsp.data ++ encodeLoop p bs (acc * 2 ^ 8 + b.toNat) n1 := by
  rcases Nat.lt_or_ge n 2 with one | two
  · refine ⟨_, n + 3, encByte_pending_one p b held one, by omega, rfl, rfl, rfl, ?_⟩
    rw [outputUnits_respondUnits _ (by simp), encodeLoop_cons_one p b bs acc n one]
    rfl
  · refine ⟨_, n - 2, encByte_pending_two p b held two within, by omega, rfl, rfl, rfl, ?_⟩
    rw [outputUnits_respondUnits _ (by simp), encodeLoop_cons_two p b bs acc n two within]
    rfl

/-- ENC.END takes the reference's last step and leaves ENC idle (R43, R100, R102). -/
theorem encEnd_refines {s : State cw} {acc n : Nat} (held : s.enc = .pending acc n) (within : n ≤ 4) :
    ∃ t : State cw, encEnd p s = .next t ∧ t.enc = EncUnit.idle ∧ t.dec = s.dec ∧ t.val = s.val ∧
      encodeLoop p [] acc n = outputUnits t.rsp.data := by
  refine ⟨_, encEnd_pending p held within, rfl, rfl, rfl, ?_⟩
  rw [outputUnits_respondUnits _ (by split <;> simp), encodeLoop_nil]

/-- An encode message behind n pending bits gives what the reference loop gives from the unbounded accumulator, leaves ENC
idle and the other units as they were (R43, R100, R104). -/
theorem runWith_encodeWords (bs : List Byte) {s : State cw} {acc n : Nat} (held : s.enc = .pending acc n) (within : n ≤ 4) :
    ∃ (rs : List Word) (t : State cw), runWith (runCommand p) (encodeWords bs) s = .next (rs, t) ∧
      readEncoding rs = encodeLoop p bs acc n ∧ t.enc = EncUnit.idle ∧ t.dec = s.dec ∧ t.val = s.val := by
  induction bs generalizing s acc n with
  | nil =>
    obtain ⟨t, ended, idle, dec, val, emitted⟩ := encEnd_refines (p := p) held within
    refine ⟨_, t, runWith_cons ((runCommand_encEnd p s).trans ended) (runWith_nil t), ?_, idle, dec, val⟩
    rw [emitted]
    exact List.append_nil _
  | cons b bs ih =>
    obtain ⟨s1, n1, byte, within1, held1, dec1, val1, emitted⟩ := encByte_refines (p := p) b bs held within
    obtain ⟨rs, t, rest, read, idle, dec, val⟩ := ih held1 within1
    refine ⟨_, t, runWith_cons ((runCommand_encByte p b s).trans byte) rest, ?_, idle, dec.trans dec1, val.trans val1⟩
    rw [emitted, ← read]
    rfl

/-- The encode protocol on an idle ENC gives Base32Encode (R100, R104). -/
theorem hostEncode_eq (p : CodecParams cw) (bs : List Byte) {s : State cw} (idle : s.enc = EncUnit.idle) :
    ∃ t : State cw, hostEncode p bs s = .next (base32Encode p bs, t) ∧
      t.enc = EncUnit.idle ∧ t.dec = s.dec ∧ t.val = s.val := by
  obtain ⟨rs, t, ran, emitted, units⟩ :=
    runWith_encodeWords (p := p) bs (idle.trans EncUnit.idle_eq_pending) (Nat.zero_le 4)
  refine ⟨t, ?_, units⟩
  rw [base32Encode, ← emitted]
  exact runMessage_of_run readEncoding ran

/-! ## Decoding -/

/-- Before the last response, a response only adds its units (R134). -/
theorem readDecoding_cons (r : Word) {rs : List Word} (more : rs ≠ []) :
    (readDecoding (r :: rs) : DecodeResult cw) = (readDecoding rs).prepend (outputUnits r) := by
  obtain ⟨last, hlast⟩ : ∃ last, rs.getLast? = some last := ⟨_, List.getLast?_eq_getLast_of_ne_nil more⟩
  rw [readDecoding, readDecoding, List.getLast?_cons, hlast]
  simp only [Option.getD_some]
  split
  · rfl
  · rw [List.flatMap_cons]
    rfl

/-- A run of a decode message has a response. -/
theorem ne_nil_of_runWith_decodeWords {cs : List (BitVec cw)} {s t : State cw} {rs : List Word}
    (ran : runWith (runCommand p) (decodeWords cs) s = .next (rs, t)) : rs ≠ [] := by
  refine List.ne_nil_of_length_pos ?_
  rw [runWith_length ran, decodeWords, List.length_append, List.length_singleton]
  exact Nat.succ_pos _

/-- In sticky error a decode message reports the latched character, leaves DEC idle and the other units as they were (R132,
R134, R214). -/
theorem runWith_decodeWords_sticky (wide : cw ≤ 24) (cs : List (BitVec cw)) {s : State cw} (sticky : s.dec.err = true) :
    ∃ (rs : List Word) (t : State cw), runWith (runCommand p) (decodeWords cs) s = .next (rs, t) ∧
      readDecoding rs = .invalidCharacter s.dec.errch ∧ t.dec = DecUnit.idle ∧ t.enc = s.enc ∧ t.val = s.val := by
  induction cs generalizing s with
  | nil =>
    have ended := (runCommand_decEnd p s).trans (decEnd_sticky sticky)
    refine ⟨_, _, runWith_cons ended (runWith_nil _), ?_, rfl, rfl, rfl⟩
    simp [readDecoding, rspChar_respWord wide]
  | cons c cs ih =>
    have aborted := (runCommand_decChar p wide c s).trans (decChar_aborted p c sticky)
    obtain ⟨rs, t, rest, verdict, units⟩ := ih (s := s.respond .aborted 0 0) sticky
    refine ⟨_, t, runWith_cons aborted rest, ?_, units⟩
    rw [readDecoding_cons _ (ne_nil_of_runWith_decodeWords rest), verdict]
    rfl

/-- DEC.CHAR on a hit takes one turn of the reference loop: it emits the turn's byte, if any, and leaves the turn's bits
pending (R43, R130, R131). -/
theorem decChar_refines {c : BitVec cw} (cs : List (BitVec cw)) (hit : (p.inv c).hit = true) {s : State cw} {acc n : Nat}
    (held : s.dec = .pending acc n) (within : n ≤ 7) :
    ∃ (t : State cw) (n1 : Nat), decChar p c s = .next t ∧ n1 ≤ 7 ∧
      t.dec = .pending (acc * 2 ^ 5 + (p.inv c).idx.toNat) n1 ∧ t.enc = s.enc ∧ t.val = s.val ∧
      decodeLoop p (c :: cs) acc n =
        (decodeLoop p cs (acc * 2 ^ 5 + (p.inv c).idx.toNat) n1).prepend (outputUnits t.rsp.data) := by
  rcases Nat.lt_or_ge n 3 with quiet | full
  · refine ⟨_, n + 5, decChar_pending_quiet held hit quiet, by omega, rfl, rfl, rfl, ?_⟩
    rw [outputUnits_respondUnits _ (by simp), DecodeResult.prepend_nil, decodeLoop_cons_quiet cs acc n hit quiet]
  · refine ⟨_, n - 3, decChar_pending_emits held hit full within, by omega, rfl, rfl, rfl, ?_⟩
    rw [outputUnits_respondUnits _ (by simp), DecodeResult.prepend_singleton, decodeLoop_cons_emits cs acc n hit full]

/-- A decode message behind n pending bits gives what the reference loop gives from the unbounded accumulator, leaves DEC idle
and the other units as they were (R43, R130, R134). -/
theorem runWith_decodeWords (wide : cw ≤ 24) (cs : List (BitVec cw)) {s : State cw} {acc n : Nat} (held : s.dec = .pending acc n)
    (within : n ≤ 7) :
    ∃ (rs : List Word) (t : State cw), runWith (runCommand p) (decodeWords cs) s = .next (rs, t) ∧
      readDecoding rs = decodeLoop p cs acc n ∧ t.dec = DecUnit.idle ∧ t.enc = s.enc ∧ t.val = s.val := by
  have clear : s.dec.err = false := by rw [held]; rfl
  induction cs generalizing s acc n with
  | nil =>
    have ended := (runCommand_decEnd p s).trans (decEnd_ok clear)
    refine ⟨_, _, runWith_cons ended (runWith_nil _), ?_, rfl, rfl, rfl⟩
    simp [readDecoding, decodeLoop, RspStatus.code_inj]
  | cons c cs ih =>
    cases hit : (p.inv c).hit with
    | false =>
      have missed := (runCommand_decChar p wide c s).trans (decChar_miss clear hit)
      obtain ⟨rs, t, rest, verdict, units⟩ := runWith_decodeWords_sticky (p := p) wide cs (s := s.enterDecError c) rfl
      refine ⟨_, t, runWith_cons missed rest, ?_, units⟩
      rw [readDecoding_cons _ (ne_nil_of_runWith_decodeWords rest), verdict, decodeLoop_cons_miss cs acc n hit]
      rfl
    | true =>
      obtain ⟨s1, n1, folded, within1, held1, enc1, val1, emitted⟩ := decChar_refines cs hit held within
      obtain ⟨rs, t, rest, verdict, idle, enc, val⟩ := ih held1 within1 (by rw [held1]; rfl)
      refine ⟨_, t, runWith_cons ((runCommand_decChar p wide c s).trans folded) rest, ?_, idle, enc.trans enc1, val.trans val1⟩
      rw [readDecoding_cons _ (ne_nil_of_runWith_decodeWords rest), verdict, emitted]

/-- The decode protocol on an idle DEC gives Base32Decode (R130, R134). -/
theorem hostDecode_eq (wide : cw ≤ 24) (cs : List (BitVec cw)) {s : State cw} (idle : s.dec = DecUnit.idle) :
    ∃ t : State cw, hostDecode p cs s = .next (base32Decode p cs, t) ∧
      t.dec = DecUnit.idle ∧ t.enc = s.enc ∧ t.val = s.val := by
  obtain ⟨rs, t, ran, verdict, units⟩ :=
    runWith_decodeWords (p := p) wide cs (idle.trans DecUnit.idle_eq_pending) (Nat.zero_le 7)
  refine ⟨t, ?_, units⟩
  rw [base32Decode, ← verdict]
  exact runMessage_of_run readDecoding ran

/-! ## Validation -/

/-- What VAL.END answers, read as a verdict (R163). -/
def verdictOf (v : ValUnit cw) : Verdict cw :=
  if v.seen = false then .emptyInput
  else if v.bad = true then .invalidAlphabetCharacter v.badch
  else .valid

/-- VAL.END answers the verdict of VAL's registers (R163, R165). -/
theorem readVerdict_valEnd (wide : cw ≤ 24) (s : State cw) :
    ∃ t : State cw, valEnd s = .next t ∧ t.val = ValUnit.idle ∧ t.enc = s.enc ∧ t.dec = s.dec ∧
      readVerdict [t.rsp.data] = verdictOf s.val := by
  cases seen : s.val.seen with
  | false =>
    refine ⟨_, valEnd_empty seen, rfl, rfl, rfl, ?_⟩
    simp [readVerdict, verdictOf, seen]
  | true =>
    cases bad : s.val.bad with
    | true =>
      refine ⟨_, valEnd_bad seen bad, rfl, rfl, rfl, ?_⟩
      simp [readVerdict, verdictOf, seen, bad, RspStatus.code_inj, rspChar_respWord wide]
    | false =>
      refine ⟨_, valEnd_ok seen bad, rfl, rfl, rfl, ?_⟩
      simp [readVerdict, verdictOf, seen, bad, RspStatus.code_inj]

/-- The verdict is the last response's (R165). -/
theorem readVerdict_cons (r : Word) {rs : List Word} (more : rs ≠ []) :
    (readVerdict (r :: rs) : Verdict cw) = readVerdict rs := by
  rw [readVerdict, readVerdict, List.getLast?_cons_of_ne_nil more]

/-- A validate message scans its characters in order; the verdict is that of VAL's registers behind them (R162, R165). -/
theorem runWith_validateWords (wide : cw ≤ 24) (cs : List (BitVec cw)) (s : State cw) :
    ∃ (rs : List Word) (t : State cw), runWith (runCommand p) (validateWords cs) s = .next (rs, t) ∧ rs ≠ [] ∧
      readVerdict rs = verdictOf (cs.foldl (scanChar p) s.val) ∧ t.val = ValUnit.idle ∧ t.enc = s.enc ∧ t.dec = s.dec := by
  induction cs generalizing s with
  | nil =>
    obtain ⟨t, ended, idle, enc, dec, verdict⟩ := readVerdict_valEnd wide s
    exact ⟨_, t, runWith_cons ((runCommand_valEnd p s).trans ended) (runWith_nil t), by simp, verdict, idle, enc, dec⟩
  | cons c cs ih =>
    have scanned := (runCommand_valChar p wide c s).trans (valChar_scans p c s)
    obtain ⟨rs, t, rest, more, verdict, units⟩ :=
      ih { s with val := scanChar p s.val c, rsp := { valid := true, data := 0x00000000 } }
    exact ⟨_, t, runWith_cons scanned rest, by simp, (readVerdict_cons _ more).trans verdict, units⟩

/-- VAL_SEEN behind a string: it was set, or a character lies outside WS_SET (R162). -/
theorem foldl_scanChar_seen (p : CodecParams cw) (cs : List (BitVec cw)) (v : ValUnit cw) :
    (cs.foldl (scanChar p) v).seen = (v.seen || !cs.all (fun c => p.isWs c)) := by
  induction cs generalizing v with
  | nil => simp
  | cons c cs ih => rw [List.foldl_cons, ih, scanChar, List.all_cons, Bool.not_and, Bool.or_assoc]

/-- VAL_BAD and VAL_BADCH behind a string stay once they are set (R162). -/
theorem foldl_scanChar_of_bad (p : CodecParams cw) (cs : List (BitVec cw)) {v : ValUnit cw} (bad : v.bad = true) :
    (cs.foldl (scanChar p) v).bad = true ∧ (cs.foldl (scanChar p) v).badch = v.badch := by
  induction cs generalizing v with
  | nil => exact ⟨bad, rfl⟩
  | cons c cs ih =>
    obtain ⟨still, kept⟩ := scanChar_bad_of_bad_or_hit (p := p) (v := v) (c := c) (.inl bad)
    rw [List.foldl_cons, ← kept]
    exact ih (still.trans bad)

/-- VAL_BAD and VAL_BADCH behind a string, when they were not set, tell its first miss (R162). -/
theorem foldl_scanChar_bad (p : CodecParams cw) (cs : List (BitVec cw)) {v : ValUnit cw} (good : v.bad = false) :
    (cs.find? (fun c => !(p.inv c).hit) = none → (cs.foldl (scanChar p) v).bad = false) ∧
    (∀ c, cs.find? (fun c => !(p.inv c).hit) = some c →
      (cs.foldl (scanChar p) v).bad = true ∧ (cs.foldl (scanChar p) v).badch = c) := by
  induction cs generalizing v with
  | nil => exact ⟨fun _ => good, nofun⟩
  | cons c cs ih =>
    cases hit : (p.inv c).hit with
    | false =>
      obtain ⟨bad, latched⟩ := scanChar_bad_of_first_miss good hit
      obtain ⟨still, kept⟩ := foldl_scanChar_of_bad p cs bad
      rw [List.find?_cons_of_pos (by simp [hit]), List.foldl_cons]
      refine ⟨nofun, fun d first => ⟨still, ?_⟩⟩
      rw [kept, latched, Option.some.inj first]
    | true =>
      obtain ⟨still, -⟩ := scanChar_bad_of_bad_or_hit (p := p) (v := v) (.inr hit)
      rw [List.find?_cons_of_neg (by simp [hit]), List.foldl_cons]
      exact ih (still.trans good)

/-- From an idle VAL, the registers behind a string give Base32Validate's verdict (R160, R162, R163). -/
theorem verdictOf_foldl_idle (p : CodecParams cw) (cs : List (BitVec cw)) :
    verdictOf (cs.foldl (scanChar p) ValUnit.idle) = base32Validate p cs := by
  have seen := foldl_scanChar_seen p cs ValUnit.idle
  obtain ⟨allHit, firstMiss⟩ := foldl_scanChar_bad p cs (v := ValUnit.idle) rfl
  rw [verdictOf, seen, base32Validate]
  cases empty : cs.all (fun c => p.isWs c) with
  | true => rfl
  | false =>
    cases first : cs.find? (fun c => !(p.inv c).hit) with
    | none => rw [allHit first]; rfl
    | some c =>
      obtain ⟨bad, latched⟩ := firstMiss c first
      rw [bad, latched]
      rfl

/-- The validate protocol on an idle VAL gives Base32Validate (R160, R165). -/
theorem hostValidate_eq (wide : cw ≤ 24) (cs : List (BitVec cw)) {s : State cw} (idle : s.val = ValUnit.idle) :
    ∃ t : State cw, hostValidate p cs s = .next (base32Validate p cs, t) ∧
      t.val = ValUnit.idle ∧ t.enc = s.enc ∧ t.dec = s.dec := by
  obtain ⟨rs, t, ran, -, verdict, units⟩ := runWith_validateWords (p := p) wide cs s
  refine ⟨t, ?_, units⟩
  rw [← verdictOf_foldl_idle, ← idle, ← verdict]
  exact runMessage_of_run readVerdict ran

/-- Settles O59: each protocol is simulated from its idle unit; OPERAND and DATA hold a character of well-formed parameters. -/
theorem messagesOfAnyParametersGiveTheReferenceResults : Obligations.MessagesOfAnyParametersGiveTheReferenceResults := by
  intro cw p hp
  have wide := CodecParams.width_le_of_wf hp
  exact ⟨fun bs _ idle => hostEncode_eq p bs idle, fun cs _ idle => hostDecode_eq wide cs idle,
    fun cs _ idle => hostValidate_eq wide cs idle⟩

end Sys2Proof.Codec

namespace Sys2Proof.Machine

/-! ## B32C -/

/-- B32C's encode message is the one of its parameters (R104). -/
theorem hostEncode_eq_codec (bs : List Byte) (s : State) : hostEncode bs s = Codec.hostEncode b32c bs s := by
  have words : (encodeMessage bs).map encode = Codec.encodeWords bs := by
    simp only [encodeMessage, Codec.encodeWords, List.map_append, List.map_map]
    rfl
  rw [hostEncode, Codec.hostEncode, words, runCommand_eq_codec]

/-- B32C's decode message is the one of its parameters (R134). -/
theorem hostDecode_eq_codec (cs : List CharCode) (s : State) : hostDecode cs s = Codec.hostDecode b32c cs s := by
  have words : (decodeMessage cs).map encode = Codec.decodeWords cs := by
    simp only [decodeMessage, Codec.decodeWords, List.map_append, List.map_map]
    rfl
  rw [hostDecode, Codec.hostDecode, words, runCommand_eq_codec]

/-- B32C's validate message is the one of its parameters (R165). -/
theorem hostValidate_eq_codec (cs : List CharCode) (s : State) : hostValidate cs s = Codec.hostValidate b32c cs s := by
  have words : (validateMessage cs).map encode = Codec.validateWords cs := by
    simp only [validateMessage, Codec.validateWords, List.map_append, List.map_map]
    rfl
  rw [hostValidate, Codec.hostValidate, words, runCommand_eq_codec]

/-- Settles O44: B32C's encode protocol is that of its parameters. -/
theorem encodeProtocolGivesTheReferenceEncoding : Obligations.EncodeProtocolGivesTheReferenceEncoding := by
  intro bs s idle
  rw [hostEncode_eq_codec]
  exact Codec.hostEncode_eq b32c bs idle

/-- Settles O45: B32C's decode protocol is that of its parameters. -/
theorem decodeProtocolGivesTheReferenceDecoding : Obligations.DecodeProtocolGivesTheReferenceDecoding := by
  intro cs s idle
  rw [hostDecode_eq_codec]
  exact Codec.hostDecode_eq (by decide) cs idle

/-- Settles O46: B32C's validate protocol is that of its parameters. -/
theorem validateProtocolGivesTheReferenceVerdict : Obligations.ValidateProtocolGivesTheReferenceVerdict := by
  intro cs s idle
  rw [hostValidate_eq_codec]
  exact Codec.hostValidate_eq (by decide) cs idle

/-- Settles O52: encoding leaves DEC idle, and the reference decoding of the reference encoding gives the bytes back. -/
theorem blockDecodesWhatItEncoded : Obligations.BlockDecodesWhatItEncoded := by
  intro bs s encIdle decIdle
  obtain ⟨t1, encoded, -, dec, -⟩ := encodeProtocolGivesTheReferenceEncoding bs s encIdle
  obtain ⟨t2, decoded, -⟩ :=
    decodeProtocolGivesTheReferenceDecoding (asChars (base32Encode b32c bs)) t1 (dec.trans decIdle)
  rw [decodingAnEncodingGivesTheBytesBack 21 b32c b32c_wf bs] at decoded
  exact ⟨_, t1, t2, encoded, decoded⟩

end Sys2Proof.Machine
end

section
/-! PROOFS. The mux tables of ENC.BYTE and DEC.CHAR, and both commands outside their rules (spec 40_encoder.md R101,
41_decoder.md R131, 93_implementation_defined.md U3, U4): O14, O15, O20 and O21. -/

namespace Sys2Proof.Machine

variable {m w : Nat}

/-- A window of a buffer with w new bits behind its old ones is one of their append (R43). -/
theorem window_eq_extract_append (x : BitVec m) (y : BitVec w) (i v : Nat) :
    BitVec.ofNat v ((x.toNat * 2 ^ w + y.toNat) / 2 ^ i) = (x ++ y).extractLsb' i v := by
  rw [← toNat_append_eq_add, BitVec.extractLsb', Nat.shiftRight_eq_div_pow]

/-- A window of w - i new bits and j old ones: the low old bits, then the top new ones (R101, R131). -/
theorem window_eq_append (x : BitVec m) (y : BitVec w) {i : Nat} (j : Nat) (h : i ≤ w) :
    BitVec.ofNat (j + (w - i)) ((x.toNat * 2 ^ w + y.toNat) / 2 ^ i) = x.extractLsb' 0 j ++ y.extractLsb' i (w - i) := by
  rw [window_eq_extract_append]
  refine BitVec.eq_of_getLsbD_eq fun k hk => ?_
  rw [BitVec.getLsbD_append, BitVec.getLsbD_extractLsb', BitVec.getLsbD_append, BitVec.getLsbD_extractLsb',
    BitVec.getLsbD_extractLsb']
  by_cases new : k < w - i
  · simp [hk, new, show i + k < w by omega]
  · simp [hk, new, show ¬ i + k < w by omega, show i + k - w = k - (w - i) by omega, show k - (w - i) < j by omega]

/-- A window of new bits only (R101, R131). -/
theorem window_eq_extract (x : BitVec m) (y : BitVec w) {i v : Nat} (h : i + v ≤ w) :
    BitVec.ofNat v ((x.toNat * 2 ^ w + y.toNat) / 2 ^ i) = y.extractLsb' i v := by
  rw [window_eq_extract_append, BitVec.extractLsb'_append_eq_of_add_le h]

/-- The low bits, all of them new (R101, R131). -/
theorem low_eq_extract (x : BitVec m) (y : BitVec w) {k : Nat} (h : k ≤ w) :
    (x.toNat * 2 ^ w + y.toNat) % 2 ^ k = (y.extractLsb' 0 k).toNat := by
  rw [← window_eq_extract x y (by omega), BitVec.toNat_ofNat, pow_zero, Nat.div_one]

/-- A field zero-extended by j bits. -/
theorem ofNat_toNat_eq_append {k : Nat} (j : Nat) (x : BitVec k) : BitVec.ofNat (j + k) x.toNat = 0#j ++ x := by
  apply BitVec.eq_of_toNat_eq
  rw [toNat_append_eq_add, BitVec.toNat_zero, Nat.zero_mul, Nat.zero_add, BitVec.toNat_ofNat]
  exact Nat.mod_eq_of_lt (x.isLt.trans_le (Nat.pow_le_pow_right (by decide) (Nat.le_add_left k j)))

/-- The low bits of a small value are a zero-extended field. -/
theorem extract_eq_append_of_lt {x : BitVec m} {k : Nat} (j : Nat) (h : x.toNat < 2 ^ k) :
    x.extractLsb' 0 (j + k) = 0#j ++ x.extractLsb' 0 k := by
  rw [← ofNat_toNat_eq_append, BitVec.extractLsb'_toNat, Nat.shiftRight_zero, Nat.mod_eq_of_lt h]
  rfl

end Sys2Proof.Machine

namespace Sys2Proof.Codec

open Sys2Proof.Machine

variable {cw : Nat}

/-- What the extractor gives goes out as its first symbol and at most one more (R101). -/
theorem emitSymbols_responds (p : CodecParams cw) (s : State cw) (r : EncStep) :
    ∃ more : List Symbol, more.length ≤ 1 ∧
      s.emitSymbols p r = (s.setEnc r.unit).respondUnits (p.rom r.first :: more.map p.rom) := by
  obtain ⟨unit, first, _ | second⟩ := r
  · exact ⟨[], by simp, rfl⟩
  · exact ⟨[second], by simp, rfl⟩

end Sys2Proof.Codec

namespace Sys2Proof.Machine

open Sys2Proof.Codec

/-- Settles O14: the windows of R101's pseudocode lie in the pending bits and the byte as the table says. -/
theorem encByteIsItsMuxTable : Obligations.EncByteIsItsMuxTable := by
  intro s b
  refine ⟨fun cnt => ?_, fun cnt => ?_, fun cnt => ?_, fun cnt => ?_, fun cnt => ?_⟩
  · have n : s.enc.cnt.toNat = 0 := by rw [cnt]; rfl
    refine (encByte_one b32c b (by omega)).trans ?_
    rw [n, low_eq_extract s.enc.acc b (k := 3) (by decide), ofNat_toNat_eq_append 1 (k := 3),
      window_eq_extract s.enc.acc b (i := 3) (by decide)]
    rfl
  · have n : s.enc.cnt.toNat = 1 := by rw [cnt]; rfl
    refine (encByte_one b32c b (by omega)).trans ?_
    rw [n, low_eq_extract s.enc.acc b (k := 4) (by decide), BitVec.ofNat_toNat, BitVec.setWidth_eq,
      window_eq_append s.enc.acc b 1 (i := 4) (by decide)]
    rfl
  · have n : s.enc.cnt.toNat = 2 := by rw [cnt]; rfl
    refine (encByte_two b32c b (by omega) (by omega)).trans ?_
    rw [n, window_eq_append s.enc.acc b 2 (i := 5) (by decide), window_eq_extract s.enc.acc b (i := 0) (by decide),
      Nat.sub_self, pow_zero, Nat.mod_one]
    rfl
  · have n : s.enc.cnt.toNat = 3 := by rw [cnt]; rfl
    refine (encByte_two b32c b (by omega) (by omega)).trans ?_
    rw [n, low_eq_extract s.enc.acc b (k := 1) (by decide), ofNat_toNat_eq_append 3 (k := 1),
      window_eq_append s.enc.acc b 3 (i := 6) (by decide), window_eq_extract s.enc.acc b (i := 1) (by decide)]
    rfl
  · have n : s.enc.cnt.toNat = 4 := by rw [cnt]; rfl
    refine (encByte_two b32c b (by omega) (by omega)).trans ?_
    rw [n, low_eq_extract s.enc.acc b (k := 2) (by decide), ofNat_toNat_eq_append 2 (k := 2),
      window_eq_append s.enc.acc b 4 (i := 7) (by decide), window_eq_extract s.enc.acc b (i := 2) (by decide),
      BitVec.extractLsb'_eq_self]
    rfl

/-- Settles O15: the symbols are the free ones, at least one and at most two, and the index of the free values advances. -/
theorem encoderCompletesOutsideItsRules : Obligations.EncoderCompletesOutsideItsRules := by
  intro s outside
  refine ⟨fun b => ?_, _, encEnd_outside b32c outside⟩
  obtain ⟨more, short, emitted⟩ := emitSymbols_responds b32c s.drawFree (encExtractOpen s.freeCount)
  refine ⟨(encExtractOpen s.freeCount).unit, (encExtractOpen s.freeCount).first, more, short,
    (encByte_outside b32c b outside).trans ?_⟩
  have count : (b32c.rom (encExtractOpen s.freeCount).first :: more.map b32c.rom).length = 1 + more.length := by
    rw [List.length_cons, List.length_map, Nat.add_comm]
  rw [emitted, State.respondUnits, count]
  rfl

/-- A byte-less DEC.CHAR of the mux table: the character's value behind the low 2 pending bits (R131). -/
theorem decChar_mux_quiet {s : State} {c : CharCode} (clear : s.dec.err = false) (hit : (inv c).hit = true)
    (fits : s.dec.acc.toNat < 2 ^ s.dec.cnt.toNat) (n : s.dec.cnt.toNat < 3) :
    exec (.decChar c) s = .next
      { s with
        dec := { s.dec with
          acc := s.dec.acc.extractLsb' 0 2 ++ (inv c).idx
          cnt := BitVec.ofNat 3 (s.dec.cnt.toNat + 5) }
        rsp := { valid := true, data := 0x00000000 } } := by
  have acc := window_eq_append s.dec.acc (inv c).idx (i := 0) 2 (by decide)
  rw [pow_zero, Nat.div_one, BitVec.extractLsb'_eq_self] at acc
  refine (decChar_hit clear hit).trans (congrArg Host.Outcome.next ?_)
  rw [foldSymbol_quiet _ n fits]
  refine (State.respond_ok_zero _).trans ?_
  rw [← acc]
  rfl

/-- A DEC.CHAR of the mux table that emits a byte: the low pending bits with the top of the character's value behind them; the
k low bits of the value stay (R131). -/
theorem decChar_mux_emits {s : State} {c : CharCode} (clear : s.dec.err = false) (hit : (inv c).hit = true) {k : Nat}
    (n : s.dec.cnt.toNat = k + 3) :
    exec (.decChar c) s = .next
      { s with
        dec := { s.dec with acc := BitVec.ofNat 7 ((inv c).idx.extractLsb' 0 k).toNat, cnt := BitVec.ofNat 3 k }
        rsp := { valid := true, data := respWord .ok 1 (packUnits
          [BitVec.ofNat 8 ((s.dec.acc.toNat * 2 ^ 5 + (inv c).idx.toNat) / 2 ^ k)]) } } := by
  have small := s.dec.cnt.isLt
  refine (decChar_hit clear hit).trans (congrArg Host.Outcome.next ?_)
  rw [foldSymbol_emits _ (by omega), n, Nat.add_sub_cancel, ← low_eq_extract s.dec.acc (inv c).idx (by omega)]
  rfl

/-- Settles O20: the pending bits and the character's value stand in the buffer as the table says. -/
theorem decCharIsItsMuxTable : Obligations.DecCharIsItsMuxTable := by
  intro s c ⟨fits, _, _⟩ clear hit
  have number {k : BitVec 3} (cnt : s.dec.cnt = k) : s.dec.cnt.toNat = k.toNat := congrArg BitVec.toNat cnt
  refine ⟨fun cnt => ?_, fun cnt => ?_, fun cnt => ?_, fun cnt => ?_, fun cnt => ?_, fun cnt => ?_, fun cnt => ?_,
    fun cnt => ?_⟩
  · have ran := decChar_mux_quiet clear hit fits (by rw [cnt]; decide)
    have none_pending : s.dec.acc = 0 := BitVec.eq_of_toNat_eq (Nat.lt_one_iff.mp (by rwa [cnt] at fits))
    rw [cnt, none_pending] at ran
    exact ran
  · have ran := decChar_mux_quiet clear hit fits (by rw [cnt]; decide)
    rw [cnt] at fits
    rw [cnt, extract_eq_append_of_lt 1 (k := 1) fits] at ran
    exact ran
  · have ran := decChar_mux_quiet clear hit fits (by rw [cnt]; decide)
    rw [cnt] at ran
    exact ran
  · refine (decChar_mux_emits clear hit (k := 0) (number cnt)).trans ?_
    rw [window_eq_append s.dec.acc (inv c).idx 3 (i := 0) (by decide), BitVec.extractLsb'_eq_self,
      BitVec.toNat_zero_length]
    rfl
  · refine (decChar_mux_emits clear hit (k := 1) (number cnt)).trans ?_
    rw [ofNat_toNat_eq_append 6 (k := 1), window_eq_append s.dec.acc (inv c).idx 4 (i := 1) (by decide)]
    rfl
  · refine (decChar_mux_emits clear hit (k := 2) (number cnt)).trans ?_
    rw [ofNat_toNat_eq_append 5 (k := 2), window_eq_append s.dec.acc (inv c).idx 5 (i := 2) (by decide)]
    rfl
  · refine (decChar_mux_emits clear hit (k := 3) (number cnt)).trans ?_
    rw [ofNat_toNat_eq_append 4 (k := 3), window_eq_append s.dec.acc (inv c).idx 6 (i := 3) (by decide)]
    rfl
  · refine (decChar_mux_emits clear hit (k := 4) (number cnt)).trans ?_
    rw [ofNat_toNat_eq_append 3 (k := 4), window_eq_append s.dec.acc (inv c).idx 7 (i := 4) (by decide),
      BitVec.extractLsb'_eq_self]
    rfl

/-- Settles O21: the fold that emits no byte draws a free DEC_ACC where the pending bits do not fit their count. -/
theorem decCharCompletesOutsideItsInvariant : Obligations.DecCharCompletesOutsideItsInvariant := by
  intro s c clear hit quiet stray
  refine ⟨Config.freeDecAcc s.freeCount, (decChar_hit clear hit).trans (congrArg Host.Outcome.next ?_)⟩
  rw [foldSymbol_outside _ (by omega) stray]
  exact State.respond_ok_zero _

end Sys2Proof.Machine
end

section
/-! PROOFS. Counts, lengths and bit strings of messages (spec 10_state.md R41, 20_memory.md R53, 40_encoder.md R106, R107,
41_decoder.md R136, 42_validator.md R167): O43, O48, O49, O50, O53 and O55. -/

namespace Sys2Proof

variable {cw : Nat}

/-! ## The reference encoder's symbols -/

/-- The n low bits of a number, the oldest first (R53). -/
def bitString (n a : Nat) : List Bool :=
  (List.range n).map (fun k => a.testBit (n - 1 - k))

/-- The bits of a machine word are the low bits of its number (R53). -/
theorem msbBits_ofNat (w a : Nat) : msbBits (BitVec.ofNat w a) = bitString w a := by
  refine List.map_congr_left fun k hk => ?_
  have small : k < w := List.mem_range.mp hk
  have mirrored : w - 1 - k < w := by omega
  simp only [BitVec.getMsbD, BitVec.getLsbD_ofNat, small, mirrored, decide_true, Bool.true_and]

/-- The low j + i bits are the j bits above bit i and the i low ones. -/
theorem bitString_add (j i a : Nat) : bitString (j + i) a = bitString j (a / 2 ^ i) ++ bitString i a := by
  rw [bitString, List.range_add, List.map_append, List.map_map]
  congr 1
  · refine List.map_congr_left fun k hk => ?_
    have small : k < j := List.mem_range.mp hk
    rw [Nat.testBit_div_two_pow, show j - 1 - k + i = j + i - 1 - k by omega]
  · refine List.map_congr_left fun k _ => ?_
    rw [Function.comp_apply, show j + i - 1 - (j + k) = i - 1 - k by omega]

/-- The low bits of a multiple of 2^i are zeros. -/
theorem bitString_mul_two_pow (i a : Nat) : bitString i (a * 2 ^ i) = List.replicate i false := by
  rw [List.eq_replicate_iff]
  refine ⟨by simp [bitString], fun bit hbit => ?_⟩
  obtain ⟨k, hk, rfl⟩ := List.mem_map.mp hbit
  have small : k < i := List.mem_range.mp hk
  rw [Nat.testBit_mul_two_pow]
  simp [show ¬ i ≤ i - 1 - k by omega]

/-- The pending bits with a byte behind them (R53, R101). -/
theorem bitString_push (acc n : Nat) (b : Byte) :
    bitString (n + 8) (acc * 2 ^ 8 + b.toNat) = bitString n acc ++ msbBits b := by
  have small := b.isLt
  have newest : BitVec.ofNat 8 (acc * 2 ^ 8 + b.toNat) = b := by
    apply BitVec.eq_of_toNat_eq
    rw [BitVec.toNat_ofNat]
    omega
  rw [bitString_add, ← msbBits_ofNat 8, newest, show (acc * 2 ^ 8 + b.toNat) / 2 ^ 8 = acc by omega]

/-- The partial symbol's bits are the pending ones and zeros (R53, R102). -/
theorem msbBits_partial (acc : Nat) {n : Nat} (h : n ≤ 5) :
    msbBits (BitVec.ofNat 5 (acc * 2 ^ (5 - n))) = bitString n acc ++ List.replicate (5 - n) false := by
  have split := bitString_add n (5 - n) (acc * 2 ^ (5 - n))
  rw [Nat.add_sub_cancel' h, Nat.mul_div_cancel _ (Nat.two_pow_pos _), bitString_mul_two_pow] at split
  rw [msbBits_ofNat, split]

/-- One turn of the reference loop: its symbols hold the oldest of the pending bits and the byte's, and the others stay
pending (R53, R100). -/
theorem encodeLoop_turn (p : CodecParams cw) (b : Byte) (bs : List Byte) (acc : Nat) {n : Nat} (within : n ≤ 4) :
    ∃ (is : List Symbol) (n1 : Nat), n1 ≤ 4 ∧ n1 = (n + 8) % 5 ∧
      encodeLoop p (b :: bs) acc n = is.map p.rom ++ encodeLoop p bs (acc * 2 ^ 8 + b.toNat) n1 ∧
      bitString (n + 8) (acc * 2 ^ 8 + b.toNat) =
        is.flatMap (fun i => msbBits i) ++ bitString n1 (acc * 2 ^ 8 + b.toNat) := by
  have first : bitString (n + 8) (acc * 2 ^ 8 + b.toNat) =
      bitString 5 ((acc * 2 ^ 8 + b.toNat) / 2 ^ (n + 3)) ++ bitString (n + 3) (acc * 2 ^ 8 + b.toNat) := by
    rw [← bitString_add, show 5 + (n + 3) = n + 8 by omega]
  rcases Nat.lt_or_ge n 2 with one | two
  · refine ⟨[_], n + 3, by omega, by omega, encodeLoop_cons_one p b bs acc n one, ?_⟩
    rw [first, List.flatMap_singleton, msbBits_ofNat]
  · refine ⟨[_, _], n - 2, by omega, by omega, encodeLoop_cons_two p b bs acc n two within, ?_⟩
    have second := bitString_add 5 (n - 2) (acc * 2 ^ 8 + b.toNat)
    rw [show 5 + (n - 2) = n + 3 by omega] at second
    rw [first, second, List.flatMap_cons, List.flatMap_singleton, msbBits_ofNat, msbBits_ofNat, List.append_assoc]

/-- The symbols' 5-bit values come back from their codes (R24). -/
theorem flatMap_inv_rom {p : CodecParams cw} (hp : p.wf = true) (is : List Symbol) :
    (asChars (is.map p.rom)).flatMap (fun c => msbBits (p.inv c).idx) = is.flatMap (fun i => msbBits i) := by
  rw [asChars, List.map_map, List.flatMap_map]
  simp only [Function.comp_apply, CodecParams.inv_rom hp]

/-- An encoding behind n pending bits carries these and the bytes' bits, but for at most 4 zero bits at the end (R53). -/
theorem encodeLoop_bits {p : CodecParams cw} (hp : p.wf = true) (bs : List Byte) (acc : Nat) {n : Nat} (within : n ≤ 4) :
    ∃ k : Nat, k ≤ 4 ∧
      (asChars (encodeLoop p bs acc n)).flatMap (fun c => msbBits (p.inv c).idx) =
        bitString n acc ++ bs.flatMap (fun b => msbBits b) ++ List.replicate k false := by
  induction bs generalizing acc n with
  | nil =>
    rw [encodeLoop_nil]
    rcases Nat.eq_zero_or_pos n with rfl | pending
    · exact ⟨0, by omega, rfl⟩
    · refine ⟨5 - n, by omega, ?_⟩
      have symbol := flatMap_inv_rom hp [BitVec.ofNat 5 (acc * 2 ^ (5 - n))]
      rw [List.flatMap_singleton, msbBits_partial acc (by omega)] at symbol
      rw [if_pos pending, List.flatMap_nil, List.append_nil]
      exact symbol
  | cons b bs ih =>
    obtain ⟨is, n1, within1, -, turn, bits⟩ := encodeLoop_turn p b bs acc within
    obtain ⟨k, few, rest⟩ := ih (acc * 2 ^ 8 + b.toNat) within1
    refine ⟨k, few, ?_⟩
    rw [turn, asChars, List.map_append, List.flatMap_append, ← asChars, ← asChars, rest, flatMap_inv_rom hp,
      List.flatMap_cons, ← List.append_assoc (bitString n acc), ← bitString_push, bits]
    simp only [List.append_assoc]

/-- Settles O50: at the start no bit is pending. -/
theorem encodingKeepsTheBitString : Obligations.EncodingKeepsTheBitString := by
  intro cw p hp bs
  exact encodeLoop_bits hp bs 0 (Nat.zero_le 4)

/-- The last symbol of an encoding behind n pending bits ends in zeros when the bits do not fill it (R107). -/
theorem encodeLoop_getLast (p : CodecParams cw) (bs : List Byte) (acc : Nat) {n : Nat} (within : n ≤ 4)
    (partly : (8 * bs.length + n) % 5 ≠ 0) :
    ∃ i : Symbol, (encodeLoop p bs acc n).getLast? = some (p.rom i) ∧ i.toNat % 2 ^ (5 - (8 * bs.length + n) % 5) = 0 := by
  induction bs generalizing acc n with
  | nil =>
    have left : (8 * ([] : List Byte).length + n) % 5 = n := by
      rw [List.length_nil]
      omega
    rw [left] at partly ⊢
    refine ⟨BitVec.ofNat 5 (acc * 2 ^ (5 - n)), ?_, ?_⟩
    · rw [encodeLoop_nil, if_pos (Nat.pos_of_ne_zero partly)]
      rfl
    · rw [BitVec.toNat_ofNat, Nat.mod_mod_of_dvd _ (Nat.pow_dvd_pow 2 (Nat.sub_le 5 n)), Nat.mul_mod_left]
  | cons b bs ih =>
    obtain ⟨is, n1, within1, count, turn, -⟩ := encodeLoop_turn p b bs acc within
    have total : (8 * (b :: bs).length + n) % 5 = (8 * bs.length + n1) % 5 := by
      rw [List.length_cons]
      omega
    rw [total] at partly ⊢
    obtain ⟨i, last, low⟩ := ih (acc * 2 ^ 8 + b.toNat) within1 partly
    exact ⟨i, by rw [turn, List.getLast?_append, last, Option.some_or], low⟩

/-- Settles O53: at the start no bit is pending, so 8n mod 5 bits are left for the last symbol. -/
theorem lastSymbolHasZeroLowBits : Obligations.LastSymbolHasZeroLowBits := by
  intro cw p bs partly
  exact encodeLoop_getLast p bs 0 (Nat.zero_le 4) partly

/-! ## The reference decoder's results -/

/-- Characters of the alphabet behind n pending bits decode to one byte for every 8 bits (R136). -/
theorem decodeLoop_of_hits {p : CodecParams cw} {cs : List (BitVec cw)} (hits : ∀ c ∈ cs, (p.inv c).hit = true) (acc : Nat)
    {n : Nat} (within : n ≤ 7) :
    ∃ bytes : List Byte, decodeLoop p cs acc n = .ok bytes ∧ bytes.length = (5 * cs.length + n) / 8 := by
  induction cs generalizing acc n with
  | nil => exact ⟨[], rfl, by rw [List.length_nil, List.length_nil]; omega⟩
  | cons c cs ih =>
    obtain ⟨hit, later⟩ := List.forall_mem_cons.mp hits
    rcases Nat.lt_or_ge n 3 with quiet | full
    · obtain ⟨bytes, decoded, length⟩ := ih later (acc * 2 ^ 5 + (p.inv c).idx.toNat) (n := n + 5) (by omega)
      refine ⟨bytes, (decodeLoop_cons_quiet cs acc n hit quiet).trans decoded, ?_⟩
      rw [length, List.length_cons]
      omega
    · obtain ⟨bytes, decoded, length⟩ := ih later (acc * 2 ^ 5 + (p.inv c).idx.toNat) (n := n - 3) (by omega)
      refine ⟨_ :: bytes, (decodeLoop_cons_emits cs acc n hit full).trans (congrArg (DecodeResult.cons _) decoded), ?_⟩
      rw [List.length_cons, length, List.length_cons]
      omega

/-- Settles O49: at the start no bit is pending. -/
theorem decodingHasFloorFiveEighthsBytes : Obligations.DecodingHasFloorFiveEighthsBytes := by
  intro cw p cs hits
  exact decodeLoop_of_hits hits 0 (Nat.zero_le 7)

/-- The first miss of a message is what it fails with (R130). -/
theorem decodeLoop_of_first_miss {p : CodecParams cw} {cs : List (BitVec cw)} {c : BitVec cw}
    (first : cs.find? (fun c => !(p.inv c).hit) = some c) (acc n : Nat) : decodeLoop p cs acc n = .invalidCharacter c := by
  induction cs generalizing acc n with
  | nil => cases first
  | cons d cs ih =>
    cases hit : (p.inv d).hit with
    | false =>
      rw [List.find?_cons_of_pos (by simp [hit])] at first
      rw [decodeLoop_cons_miss cs acc n hit, Option.some.inj first]
    | true =>
      rw [List.find?_cons_of_neg (by simp [hit])] at first
      rcases Nat.lt_or_ge n 3 with quiet | full
      · rw [decodeLoop_cons_quiet cs acc n hit quiet, ih first]
      · rw [decodeLoop_cons_emits cs acc n hit full, ih first]
        rfl

/-- Settles O55: the validator and the decoder look for the same first miss, and a whitespace character is one. -/
theorem validatorAgreesWithTheDecoder : Obligations.ValidatorAgreesWithTheDecoder := by
  intro cw p hp cs
  by_cases blank : cs.all (fun c => p.isWs c) = true
  · have verdict : base32Validate p cs = .emptyInput := if_pos blank
    have allWs : ∀ x ∈ cs, p.isWs x = true := List.all_eq_true.mp blank
    rw [verdict]
    refine ⟨nofun, nofun, fun _ => ⟨?_, ?_⟩⟩
    · rintro rfl
      rfl
    · rintro c rest rfl
      exact ⟨allWs, decodeLoop_cons_miss rest 0 0 (CodecParams.hit_of_isWs hp (allWs c List.mem_cons_self))⟩
  · cases first : cs.find? (fun c => !(p.inv c).hit) with
    | none =>
      have verdict : base32Validate p cs = .valid := by rw [base32Validate, if_neg blank, first]
      have hits : ∀ c ∈ cs, (p.inv c).hit = true := by simpa using List.find?_eq_none.mp first
      obtain ⟨bytes, decoded, -⟩ := decodeLoop_of_hits hits 0 (Nat.zero_le 7)
      rw [verdict]
      exact ⟨fun _ => ⟨bytes, decoded⟩, nofun, nofun⟩
    | some c =>
      have verdict : base32Validate p cs = .invalidAlphabetCharacter c := by rw [base32Validate, if_neg blank, first]
      rw [verdict]
      refine ⟨nofun, ?_, nofun⟩
      rintro d ⟨⟩
      exact decodeLoop_of_first_miss first 0 0

end Sys2Proof

namespace Sys2Proof.Codec

open Sys2Proof.Machine

variable {cw : Nat}

/-! ## The block's counts -/

/-- A hit's 5 bits are added, and a byte's 8 taken, so DEC_CNT counts modulo 8, in every state (R41, R131). -/
theorem foldSymbol_cnt (s : State cw) (v : Symbol) :
    (s.foldSymbol v).dec.cnt.toNat = (s.dec.cnt.toNat + 5) % 8 := by
  rcases Nat.lt_or_ge s.dec.cnt.toNat 3 with quiet | full
  · rcases Nat.lt_or_ge s.dec.acc.toNat (2 ^ s.dec.cnt.toNat) with fits | stray
    · rw [foldSymbol_quiet v quiet fits, State.respondUnits_dec, State.setDec_dec, BitVec.toNat_ofNat]
    · rw [foldSymbol_outside v quiet stray, State.respondUnits_dec, State.setDec_dec, BitVec.toNat_ofNat]
  · rw [foldSymbol_emits v full, State.respondUnits_dec, State.setDec_dec, BitVec.toNat_ofNat]
    omega

end Sys2Proof.Codec

namespace Sys2Proof.Machine

open Sys2Proof.Codec

/-- The number of symbols each of k bytes emits behind n pending bits (R106). -/
def symbolCounts (n : Nat) : Nat → List Nat
  | 0 => []
  | k + 1 => (n + 8) / 5 :: symbolCounts ((n + 8) % 5) k

/-- Bytes behind at most 4 pending bits emit whole symbols and leave the bits beyond them pending; ENC's invariant is kept
(R41, R106). -/
theorem runCommands_bytes (bs : List Byte) {s : State} (within : s.enc.cnt.toNat ≤ 4) :
    ∃ (rs : List Word) (t : State), runCommands (bs.map (fun b => encode (.encByte b))) s = .next (rs, t) ∧
      rs.map (fun r => (outputUnits r).length) = symbolCounts s.enc.cnt.toNat bs.length ∧
      t.enc.cnt.toNat = (s.enc.cnt.toNat + 8 * bs.length) % 5 ∧ (s.enc.Ok → t.enc.Ok) := by
  induction bs generalizing s with
  | nil => exact ⟨[], s, rfl, rfl, by rw [List.length_nil]; omega, id⟩
  | cons b bs ih =>
    obtain ⟨s1, ran, within1, bits⟩ := encByte_conserves_bits b32c b within
    obtain ⟨rs, t, rest, symbols, count, kept⟩ := ih within1
    have emitted : (outputUnits s1.rsp.data).length = (s.enc.cnt.toNat + 8) / 5 := by omega
    have left : s1.enc.cnt.toNat = (s.enc.cnt.toNat + 8) % 5 := by omega
    refine ⟨_, t, runCommands_cons ((runCommand_encode _ s).trans ran) rest, ?_, ?_,
      fun ok => kept (encByte_keeps_ok ok ran)⟩
    · rw [List.map_cons, emitted, symbols, left]
      rfl
    · rw [count, left, List.length_cons]
      omega

/-- Characters of the alphabet, sent without sticky error, add 5 bits each (R41). -/
theorem runCommands_hits_cnt {cs : List CharCode} (hits : ∀ c ∈ cs, (inv c).hit = true) {s : State}
    (clear : s.dec.err = false) :
    ∃ (rs : List Word) (t : State), runCommands (charWords cs) s = .next (rs, t) ∧
      t.dec.cnt.toNat = (s.dec.cnt.toNat + 5 * cs.length) % 8 ∧ t.dec.err = false := by
  induction cs generalizing s with
  | nil => exact ⟨[], s, rfl, (Nat.mod_eq_of_lt s.dec.cnt.isLt).symm, clear⟩
  | cons c cs ih =>
    obtain ⟨hit, later⟩ := List.forall_mem_cons.mp hits
    obtain ⟨rs, t, rest, count, still⟩ := ih later ((foldSymbol_err s (inv c).idx).trans clear)
    refine ⟨_, t, runCommands_cons ((runCommand_encode _ s).trans (decChar_hit clear hit)) rest, ?_, still⟩
    rw [count, foldSymbol_cnt, List.length_cons]
    omega

/-- Settles O43: each byte adds 8 bits modulo 5 to an ENC with none pending, each hit 5 bits modulo 8 to an idle DEC. -/
theorem pendingCountsFollowTheMessageLength : Obligations.PendingCountsFollowTheMessageLength := by
  refine ⟨fun bs s empty => ?_, fun cs s idle hits => ?_⟩
  · have none_pending : s.enc.cnt.toNat = 0 := by rw [empty]; rfl
    obtain ⟨rs, t, ran, -, count, -⟩ := runCommands_bytes bs (s := s) (by omega)
    rw [none_pending, Nat.zero_add] at count
    exact ⟨rs, t, ran, count⟩
  · have none_pending : s.dec.cnt.toNat = 0 := by rw [idle]; rfl
    obtain ⟨rs, t, ran, count, clear⟩ := runCommands_hits_cnt hits (s := s) (by rw [idle]; rfl)
    rw [none_pending, Nat.zero_add] at count
    exact ⟨rs, t, ran, count, clear⟩

/-- Settles O48: five bytes are 40 bits, of which 5 times 8 go out and none stays pending. -/
theorem fiveBytesEmitEightSymbols : Obligations.FiveBytesEmitEightSymbols := by
  intro s b1 b2 b3 b4 b5 idle
  have none_pending : s.enc.cnt.toNat = 0 := by rw [idle]; rfl
  obtain ⟨rs, t, ran, symbols, count, kept⟩ := runCommands_bytes [b1, b2, b3, b4, b5] (s := s) (by omega)
  rw [none_pending] at symbols count
  have ok : t.enc.Ok := kept (by rw [idle]; exact EncUnit.idle_ok)
  exact ⟨rs, t, ran, symbols, (EncUnit.eq_idle_iff ok).mpr (by simpa using count)⟩

end Sys2Proof.Machine
end
